-- ==== Sys2Proof/Word.lean ====
section
/-! DEFINITION. Sys2Proof/Word.lean: the widths the spec gives its values (00_scope.md R6, R8, R9).
Every value of this machine is unsigned; a bit vector is read as the number of its bits, bit 0 the least significant. -/

namespace Sys2Proof

/-- 4 bits (R8): an opcode's field, a key (R33), a sprite's height (R92). -/
abbrev Nibble := BitVec 4

/-- 8 bits (R8): a register V0..VF, a byte of memory, DT, RNG, the immediate kk. -/
abbrev Byte := BitVec 8

/-- The 12-bit address field nnn of an opcode (R91). -/
abbrev Addr := BitVec 12

/-- 16 bits: an opcode (R90), PC (R23), I (R22), a call stack slot (R25). -/
abbrev Word := BitVec 16

/-- One packed framebuffer row: column c is bit 63 - c (R31, R32). -/
abbrev Row := BitVec 64

/-- The index of a general register, 0 to 15 (R20, R92). -/
abbrev RegIx := Fin 16

/-- VF, another name for V[15] (R10, R21). -/
abbrev vf : RegIx := 15

end Sys2Proof
end

