-- ==== Sys2Proof/Syntax.lean ====
section
/-! DEFINITION. Sys2Proof/Syntax.lean: the instructions, one constructor per row of spec/opcode_table.json (30_encoding.md
R94 to R100). The fields are those of R91: x and y are register indices, n a nibble, kk a byte, nnn a 12-bit address. -/

namespace Sys2Proof

/-- The 35 rows of the opcode map. A docstring names the pattern and the rule that gives the meaning. -/
inductive Instr where
  /-- 0?E0, CLS (R254). -/
  | cls
  /-- 0?EE, RET (R151). -/
  | ret
  /-- 0nnn other than 0?E0 and 0?EE, SYS nnn (R150). -/
  | sys (nnn : Addr)
  /-- 1nnn, JP nnn (R152). -/
  | jp (nnn : Addr)
  /-- 2nnn, CALL nnn (R153). -/
  | call (nnn : Addr)
  /-- 3xkk, SE Vx, kk (R154). -/
  | seImm (x : RegIx) (kk : Byte)
  /-- 4xkk, SNE Vx, kk (R155). -/
  | sneImm (x : RegIx) (kk : Byte)
  /-- 5xyn, SE Vx, Vy, n ignored (R156). -/
  | seReg (x y : RegIx) (n : Nibble)
  /-- 6xkk, LD Vx, kk (R180). -/
  | ldImm (x : RegIx) (kk : Byte)
  /-- 7xkk, ADD Vx, kk (R181). -/
  | addImm (x : RegIx) (kk : Byte)
  /-- 8xy0, LD Vx, Vy (R182). -/
  | ldReg (x y : RegIx)
  /-- 8xy1, OR Vx, Vy (R183). -/
  | orReg (x y : RegIx)
  /-- 8xy2, AND Vx, Vy (R184). -/
  | andReg (x y : RegIx)
  /-- 8xy3, XOR Vx, Vy (R185). -/
  | xorReg (x y : RegIx)
  /-- 8xy4, ADD Vx, Vy (R186). -/
  | addReg (x y : RegIx)
  /-- 8xy5, SUB Vx, Vy (R187). -/
  | subReg (x y : RegIx)
  /-- 8xy6, SHR Vx, Vy (R188). -/
  | shrReg (x y : RegIx)
  /-- 8xy7, SUBN Vx, Vy (R189). -/
  | subnReg (x y : RegIx)
  /-- 8xyE, SHL Vx, Vy (R190). -/
  | shlReg (x y : RegIx)
  /-- 9xyn, SNE Vx, Vy, n ignored (R157). -/
  | sneReg (x y : RegIx) (n : Nibble)
  /-- Annn, LD I, nnn (R220). -/
  | ldI (nnn : Addr)
  /-- Bnnn, JP V0, nnn (R158). -/
  | jpV0 (nnn : Addr)
  /-- Cxkk, RND Vx, kk (R191). -/
  | rnd (x : RegIx) (kk : Byte)
  /-- Dxyn, DRW Vx, Vy, n (R255). -/
  | drw (x y : RegIx) (n : Nibble)
  /-- Ex9E, SKP Vx (R283). -/
  | skp (x : RegIx)
  /-- ExA1, SKNP Vx (R284). -/
  | sknp (x : RegIx)
  /-- Fx07, LD Vx, DT, or its skip form (R280, R281). -/
  | ldVxDt (x : RegIx)
  /-- Fx0A, LD Vx, K (R285). -/
  | ldVxK (x : RegIx)
  /-- Fx15, LD DT, Vx (R282). -/
  | ldDtVx (x : RegIx)
  /-- Fx18, LD ST, Vx (R286). -/
  | ldStVx (x : RegIx)
  /-- Fx1E, ADD I, Vx (R221). -/
  | addI (x : RegIx)
  /-- Fx29, LD F, Vx (R222). -/
  | ldF (x : RegIx)
  /-- Fx33, LD B, Vx (R223). -/
  | ldB (x : RegIx)
  /-- Fx55, LD [I], Vx (R224). -/
  | dump (x : RegIx)
  /-- Fx65, LD Vx, [I] (R225). -/
  | fill (x : RegIx)
deriving DecidableEq, Repr

end Sys2Proof
end

