-- ==== Sys2Proof/WellFormed.lean ====
section
/-! DEFINITION. Sys2Proof/WellFormed.lean: which terms of `Instr` are instructions of the map (30_encoding.md R92 to R94).
The widths of the fields stand in their types and every value of x, y, n, kk and nnn is legal (R92), so the one check left
is that of the family-0 remainder: SYS nnn is every 0nnn OTHER THAN 0?E0 and 0?EE (R94). -/

namespace Sys2Proof

/-- The low byte of a SYS word: the field that tells it from CLS and RET (R93, R94). -/
def sysLowByte (nnn : Addr) : Byte := nnn.extractLsb' 0 8

/-- SYS nnn is not a second spelling of CLS (0?E0) or of RET (0?EE). -/
def sysWellFormed (nnn : Addr) : Bool :=
  sysLowByte nnn != 0xE0#8 && sysLowByte nnn != 0xEE#8

/-- A term of `Instr` that some word decodes to. -/
def Instr.wellFormed : Instr → Bool
  | .sys nnn => sysWellFormed nnn
  | .cls | .ret | .jp _ | .call _ | .seImm _ _ | .sneImm _ _ | .seReg _ _ _ | .ldImm _ _ | .addImm _ _
  | .ldReg _ _ | .orReg _ _ | .andReg _ _ | .xorReg _ _ | .addReg _ _ | .subReg _ _ | .shrReg _ _
  | .subnReg _ _ | .shlReg _ _ | .sneReg _ _ _ | .ldI _ | .jpV0 _ | .rnd _ _ | .drw _ _ _ | .skp _
  | .sknp _ | .ldVxDt _ | .ldVxK _ | .ldDtVx _ | .ldStVx _ | .addI _ | .ldF _ | .ldB _ | .dump _
  | .fill _ => true

end Sys2Proof
end

