-- ==== Sys2Proof/Decode.lean ====
section
/-! DEFINITION. Sys2Proof/Decode.lean: the opcode map (30_encoding.md): fields, the decoder, total on every word and on every
byte string, and the encoder. A word that matches no row is rejected by a name that says which group of unmapped words it
belongs to (R104); the cycle runs such a word as the no-op of that rule, so a rejection here is no error of the machine. -/

namespace Sys2Proof

/-! Fields (R91). -/

/-- The family nibble, op[15:12]. -/
def famField (w : Word) : Nibble := w.extractLsb' 12 4
/-- x, op[11:8], as the index of a register (R92). -/
def xField (w : Word) : RegIx := (w.extractLsb' 8 4).toFin
/-- y, op[7:4], as the index of a register (R92). -/
def yField (w : Word) : RegIx := (w.extractLsb' 4 4).toFin
/-- n, op[3:0]. -/
def nField (w : Word) : Nibble := w.extractLsb' 0 4
/-- kk, op[7:0]. -/
def kkField (w : Word) : Byte := w.extractLsb' 0 8
/-- nnn, op[11:0]. -/
def nnnField (w : Word) : Addr := w.extractLsb' 0 12

/-- Why a word is no instruction: the three groups of unmapped words (R104). -/
inductive Unmapped where
  /-- 8xyn with n in 8, 9, A, B, C, D, F. -/
  | family8 (n : Nibble)
  /-- Exkk with kk other than 9E and A1. -/
  | familyE (kk : Byte)
  /-- Fxkk with kk in no row of R99. -/
  | familyF (kk : Byte)
deriving DecidableEq, Repr

/-- Family 0, decided by the low byte; op[11:8] is not examined for CLS and RET (R93, R94). -/
def decodeFamily0 (w : Word) : Instr :=
  if kkField w = 0xE0#8 then .cls
  else if kkField w = 0xEE#8 then .ret
  else .sys (nnnField w)

/-- Family 8, decided by the low nibble (R96). -/
def decodeFamily8 (w : Word) : Except Unmapped Instr :=
  match (nField w).toNat with
  | 0x0 => .ok (.ldReg (xField w) (yField w))
  | 0x1 => .ok (.orReg (xField w) (yField w))
  | 0x2 => .ok (.andReg (xField w) (yField w))
  | 0x3 => .ok (.xorReg (xField w) (yField w))
  | 0x4 => .ok (.addReg (xField w) (yField w))
  | 0x5 => .ok (.subReg (xField w) (yField w))
  | 0x6 => .ok (.shrReg (xField w) (yField w))
  | 0x7 => .ok (.subnReg (xField w) (yField w))
  | 0xE => .ok (.shlReg (xField w) (yField w))
  | _ => .error (.family8 (nField w))

/-- Family E, decided by the low byte (R98). -/
def decodeFamilyE (w : Word) : Except Unmapped Instr :=
  if kkField w = 0x9E#8 then .ok (.skp (xField w))
  else if kkField w = 0xA1#8 then .ok (.sknp (xField w))
  else .error (.familyE (kkField w))

/-- Family F, decided by the low byte (R99). -/
def decodeFamilyF (w : Word) : Except Unmapped Instr :=
  if kkField w = 0x07#8 then .ok (.ldVxDt (xField w))
  else if kkField w = 0x0A#8 then .ok (.ldVxK (xField w))
  else if kkField w = 0x15#8 then .ok (.ldDtVx (xField w))
  else if kkField w = 0x18#8 then .ok (.ldStVx (xField w))
  else if kkField w = 0x1E#8 then .ok (.addI (xField w))
  else if kkField w = 0x29#8 then .ok (.ldF (xField w))
  else if kkField w = 0x33#8 then .ok (.ldB (xField w))
  else if kkField w = 0x55#8 then .ok (.dump (xField w))
  else if kkField w = 0x65#8 then .ok (.fill (xField w))
  else .error (.familyF (kkField w))

/-- decode(op) of R129: the one row of R93 that the word matches, or the name of its group of unmapped words. -/
def decode (w : Word) : Except Unmapped Instr :=
  match (famField w).toNat with
  | 0x0 => .ok (decodeFamily0 w)
  | 0x1 => .ok (.jp (nnnField w))
  | 0x2 => .ok (.call (nnnField w))
  | 0x3 => .ok (.seImm (xField w) (kkField w))
  | 0x4 => .ok (.sneImm (xField w) (kkField w))
  | 0x5 => .ok (.seReg (xField w) (yField w) (nField w))
  | 0x6 => .ok (.ldImm (xField w) (kkField w))
  | 0x7 => .ok (.addImm (xField w) (kkField w))
  | 0x8 => decodeFamily8 w
  | 0x9 => .ok (.sneReg (xField w) (yField w) (nField w))
  | 0xA => .ok (.ldI (nnnField w))
  | 0xB => .ok (.jpV0 (nnnField w))
  | 0xC => .ok (.rnd (xField w) (kkField w))
  | 0xD => .ok (.drw (xField w) (yField w) (nField w))
  | 0xE => decodeFamilyE w
  | _ => decodeFamilyF w

/-! Byte order (R61): the byte at the lower address is bits 15:8. -/

/-- The word whose bytes are `hi`, then `lo`. -/
def wordOfBytes (hi lo : Byte) : Word := hi ++ lo
/-- The first of a word's bytes, bits 15:8. -/
def hiByte (w : Word) : Byte := w.extractLsb' 8 8
/-- The second of a word's bytes, bits 7:0. -/
def loByte (w : Word) : Byte := w.extractLsb' 0 8
/-- A word as the memory holds it, the first byte at the lower address. -/
def bytesOfWord (w : Word) : List Byte := [hiByte w, loByte w]

/-- Why a byte string does not begin with an instruction. -/
inductive DecodeError where
  /-- Fewer than the two bytes that every instruction has (R90, R106). -/
  | truncated
  /-- A word that matches no row (R104). -/
  | unmapped (u : Unmapped)
deriving DecidableEq, Repr

/-- The instruction at the head of a byte string, with the bytes after it. -/
def decodeBytes : List Byte → Except DecodeError (Instr × List Byte)
  | hi :: lo :: rest =>
    match decode (wordOfBytes hi lo) with
    | .ok i => .ok (i, rest)
    | .error u => .error (.unmapped u)
  | _ => .error .truncated

/-- The decoder over spec/opcode_table.json's numbering of bits: the instruction is the first word of `w`, its bits
above `nbits` zero, laid out big-endian as the memory stores it (R61, R90). -/
def decodeTableWord (nbits w : Nat) : Option Instr :=
  match decodeBytes (bytesOfWord (BitVec.ofNat 16 (w % 2 ^ nbits))) with
  | .ok (i, _) => some i
  | .error _ => none

/-! The encoder, from the patterns of R94 to R99 and the fields of R91. -/

/-- A register's four bits. -/
def regBits (x : RegIx) : Nibble := BitVec.ofFin x
/-- The form fnnn. -/
def wordNNN (f : Nibble) (nnn : Addr) : Word := f ++ nnn
/-- The form fxkk. -/
def wordXKK (f : Nibble) (x : RegIx) (kk : Byte) : Word := f ++ (regBits x ++ kk)
/-- The form fxyn. -/
def wordXYN (f : Nibble) (x y : RegIx) (n : Nibble) : Word := f ++ (regBits x ++ (regBits y ++ n))

/-- The word of an instruction. The nibble op[11:8] of CLS and RET, which the decoder does not examine, is 0: the
spelling 00E0, 00EE of R254 and R151. -/
def encode : Instr → Word
  | .cls => 0x00E0
  | .ret => 0x00EE
  | .sys nnn => wordNNN 0x0 nnn
  | .jp nnn => wordNNN 0x1 nnn
  | .call nnn => wordNNN 0x2 nnn
  | .seImm x kk => wordXKK 0x3 x kk
  | .sneImm x kk => wordXKK 0x4 x kk
  | .seReg x y n => wordXYN 0x5 x y n
  | .ldImm x kk => wordXKK 0x6 x kk
  | .addImm x kk => wordXKK 0x7 x kk
  | .ldReg x y => wordXYN 0x8 x y 0x0
  | .orReg x y => wordXYN 0x8 x y 0x1
  | .andReg x y => wordXYN 0x8 x y 0x2
  | .xorReg x y => wordXYN 0x8 x y 0x3
  | .addReg x y => wordXYN 0x8 x y 0x4
  | .subReg x y => wordXYN 0x8 x y 0x5
  | .shrReg x y => wordXYN 0x8 x y 0x6
  | .subnReg x y => wordXYN 0x8 x y 0x7
  | .shlReg x y => wordXYN 0x8 x y 0xE
  | .sneReg x y n => wordXYN 0x9 x y n
  | .ldI nnn => wordNNN 0xA nnn
  | .jpV0 nnn => wordNNN 0xB nnn
  | .rnd x kk => wordXKK 0xC x kk
  | .drw x y n => wordXYN 0xD x y n
  | .skp x => wordXKK 0xE x 0x9E
  | .sknp x => wordXKK 0xE x 0xA1
  | .ldVxDt x => wordXKK 0xF x 0x07
  | .ldVxK x => wordXKK 0xF x 0x0A
  | .ldDtVx x => wordXKK 0xF x 0x15
  | .ldStVx x => wordXKK 0xF x 0x18
  | .addI x => wordXKK 0xF x 0x1E
  | .ldF x => wordXKK 0xF x 0x29
  | .ldB x => wordXKK 0xF x 0x33
  | .dump x => wordXKK 0xF x 0x55
  | .fill x => wordXKK 0xF x 0x65

/-! The opcode map as mask and match, one row per constructor (R94 to R99, spec/opcode_table.json). -/

/-- The bits of an instruction's word that its row fixes. -/
def Instr.mask : Instr → Word
  | .cls | .ret => 0xF0FF
  | .sys _ | .jp _ | .call _ | .seImm _ _ | .sneImm _ _ | .seReg _ _ _ | .ldImm _ _ | .addImm _ _ => 0xF000
  | .ldReg _ _ | .orReg _ _ | .andReg _ _ | .xorReg _ _ | .addReg _ _ | .subReg _ _ | .shrReg _ _
  | .subnReg _ _ | .shlReg _ _ => 0xF00F
  | .sneReg _ _ _ | .ldI _ | .jpV0 _ | .rnd _ _ | .drw _ _ _ => 0xF000
  | .skp _ | .sknp _ | .ldVxDt _ | .ldVxK _ | .ldDtVx _ | .ldStVx _ | .addI _ | .ldF _ | .ldB _ | .dump _
  | .fill _ => 0xF0FF

/-- The value of those bits. -/
def Instr.pattern : Instr → Word
  | .cls => 0x00E0
  | .ret => 0x00EE
  | .sys _ => 0x0000
  | .jp _ => 0x1000
  | .call _ => 0x2000
  | .seImm _ _ => 0x3000
  | .sneImm _ _ => 0x4000
  | .seReg _ _ _ => 0x5000
  | .ldImm _ _ => 0x6000
  | .addImm _ _ => 0x7000
  | .ldReg _ _ => 0x8000
  | .orReg _ _ => 0x8001
  | .andReg _ _ => 0x8002
  | .xorReg _ _ => 0x8003
  | .addReg _ _ => 0x8004
  | .subReg _ _ => 0x8005
  | .shrReg _ _ => 0x8006
  | .subnReg _ _ => 0x8007
  | .shlReg _ _ => 0x800E
  | .sneReg _ _ _ => 0x9000
  | .ldI _ => 0xA000
  | .jpV0 _ => 0xB000
  | .rnd _ _ => 0xC000
  | .drw _ _ _ => 0xD000
  | .skp _ => 0xE09E
  | .sknp _ => 0xE0A1
  | .ldVxDt _ => 0xF007
  | .ldVxK _ => 0xF00A
  | .ldDtVx _ => 0xF015
  | .ldStVx _ => 0xF018
  | .addI _ => 0xF01E
  | .ldF _ => 0xF029
  | .ldB _ => 0xF033
  | .dump _ => 0xF055
  | .fill _ => 0xF065

end Sys2Proof
end

