-- ==== Sys2Proof/Config.lean ====
section
/-! DEFINITION. Sys2Proof/Config.lean: the parameters the source leaves open (00_scope.md R7, 92_eei_decisions.md D1, D6, D25, D32).
The spec makes each one an argument of the machine with a default. They stand in `State.params`, where no step changes
them, so a statement about every state holds for every value of every parameter. -/

namespace Sys2Proof

/-- FX07_MODE (R7, D1): what Fx07 does. -/
inductive Fx07Mode where
  /-- Skip the next instruction if V[x] equals DT (R280): the default. -/
  | skipIfEqual
  /-- Load DT into V[x] (R281). -/
  | load
deriving DecidableEq, Repr

/-- FONT (R7, R353): 80 bytes, glyph g at FONT[5g .. 5g + 4]. -/
abbrev Font := Vector Byte 80

/-- The machine's parameters, fixed for the life of the block (R7). RNG_SEED is not among them: the load port takes the
seed with every load (R45, R355). -/
structure Params where
  /-- FX07_MODE. -/
  fx07Mode : Fx07Mode
  /-- FONT, the bytes the load writes at 0x000 to 0x04F. -/
  font : Font
  /-- TICK_HZ: nominal only, no rule depends on it (R7, R370, R372), and nothing in the model reads it. -/
  tickHz : Nat
deriving DecidableEq, Repr

namespace Config

/-- The standard CHIP-8 hexadecimal font, the default of FONT (R353, D32). -/
def standardFont : Font := ⟨#[
  0xF0, 0x90, 0x90, 0x90, 0xF0,   -- 0
  0x20, 0x60, 0x20, 0x20, 0x70,   -- 1
  0xF0, 0x10, 0xF0, 0x80, 0xF0,   -- 2
  0xF0, 0x10, 0xF0, 0x10, 0xF0,   -- 3
  0x90, 0x90, 0xF0, 0x10, 0x10,   -- 4
  0xF0, 0x80, 0xF0, 0x10, 0xF0,   -- 5
  0xF0, 0x80, 0xF0, 0x90, 0xF0,   -- 6
  0xF0, 0x10, 0x20, 0x40, 0x40,   -- 7
  0xF0, 0x90, 0xF0, 0x90, 0xF0,   -- 8
  0xF0, 0x90, 0xF0, 0x10, 0xF0,   -- 9
  0xF0, 0x90, 0xF0, 0x90, 0x90,   -- A
  0xE0, 0x90, 0xE0, 0x90, 0xE0,   -- B
  0xF0, 0x80, 0x80, 0x80, 0xF0,   -- C
  0xE0, 0x90, 0x90, 0x90, 0xE0,   -- D
  0xF0, 0x80, 0xF0, 0x80, 0xF0,   -- E
  0xF0, 0x80, 0xF0, 0x80, 0x80    -- F
  ], rfl⟩

/-- The defaults the spec decided (R7). -/
def defaults : Params where
  fx07Mode := .skipIfEqual
  font := standardFont
  tickHz := 60

/-- The seed `State.reset` was launched with. DESIGN CHOICE, unsafe (log entry 1): RNG_SEED has no default (R7, D6); 0x01 is
the seed of the spec's common start state (95_test_vectors.md). A statement for every seed speaks of every state. -/
def resetSeed : Byte := 0x01

end Config
end Sys2Proof
end

