-- ==== Sys2Proof/Machine/State.lean ====
section
/-! DEFINITION. Sys2Proof/Machine/State.lean: every piece of state of 10_state.md, as plain data, with the outcomes a step can
stop with and the state after reset (70_reset_and_hazards.md R350). Two fields are the model's own: `loaded`, which tells the
UNLOADED block of R132 and R358 from a loaded one, and `schedule`, the interleaving of the agents (log entry 3). -/

namespace Sys2Proof.Machine

/-- MEM (R60): (address, byte) pairs, addresses rising, no entry equal to what an unlisted address reads as
(`Memory.wf` and `Memory.unlisted` of Machine/Ops.lean). -/
abbrev Memory := List Host.Cell

/-- The fault codes (R310). Code 0 is the absence of a fault, `FAULT = none`. -/
inductive FaultCode where
  /-- A data access at an address of 0x1000 or more (R311). -/
  | boundsViolation
  /-- CALL with 24 return addresses on the stack (R312). -/
  | stackOverflow
  /-- RET with an empty stack (R313). -/
  | stackUnderflow
  /-- Fetch with PC < 0x200 or PC ≥ 0x1000 (R314). -/
  | pcOutOfRange
  /-- Fetch with PC in range and odd (R315). -/
  | pcMisaligned
deriving DecidableEq, Repr

/-- The fault record FAULT holds (R36). -/
structure FaultRecord where
  /-- Which fault. -/
  code : FaultCode
  /-- The address of the instruction whose cycle faulted. -/
  pc : Word
  /-- The word fetched in that cycle, 0x0000 when the fetch itself faulted. -/
  opcode : Word
  /-- The lowest out-of-range address of a BoundsViolation, 0x0000 for every other code. -/
  addr : Word
deriving DecidableEq, Repr

/-- What one agent does between two cycles, and the cycle itself (R17, R134, R337). -/
inductive Event where
  /-- The execution agent's step, `cycle()` (R46, R120). -/
  | cycle
  /-- The timer agent's step (R325). -/
  | tick
  /-- The host's key port (R47): a key is none or 0 to 15. -/
  | setKey (k : Option Nibble)
  /-- The host's `ack_draw()` (R49). -/
  | ackDraw
  /-- The host's `ack_clear()` (R49). -/
  | ackClear
  /-- The host's `stop_timer()` (R52). -/
  | stopTimer
  /-- The host's load (R45, R350). `slots` is what the call stack's slots hold afterwards: the spec leaves them
  unspecified (R25, U13), so the event carries any value. -/
  | load (rom : List Byte) (seed : Byte) (slots : Vector Word 24)
deriving DecidableEq, Repr

/-- The reasons a step ends in a fault of the MODEL: there are none. Every error the spec names is a record in FAULT and a
next state, in which later cycles do nothing (R121, R131, R319). -/
inductive Fault
deriving DecidableEq, Repr

/-- The reasons a step is refused. -/
inductive Refusal where
  /-- Raised by `exec` for an instruction that has no meaning yet; safe. No arm is so at present. -/
  | notModelled (mnemonic : String)
  /-- Raised by `step` when any agent but a load acts on a block that has never been loaded: such a block has no
  state, `cycle()` on it is refused and it has no timer agent (R132, R329, R358); safe. -/
  | unloaded
deriving DecidableEq, Repr

/-- The block's state. -/
structure State where
  /-- The parameters of R7; no step changes them. -/
  params : Params
  /-- MODEL's own: false for the UNLOADED block (R132, R358), true after the first successful load. -/
  loaded : Bool
  /-- MEM (R60). -/
  mem : Memory
  /-- V0..VF (R20, R21). -/
  v : Vector Byte 16
  /-- I, the index register (R22). -/
  i : Word
  /-- PC (R23). -/
  pc : Word
  /-- STACK[0] to STACK[23] (R25). -/
  stack : Vector Word 24
  /-- SP, the number of occupied slots, 0 to 24 (R26). -/
  sp : Fin 25
  /-- CUR_OP (R27). -/
  curOp : Word
  /-- WAIT, the key-wait target (R28). -/
  wait : Option RegIx
  /-- DRAW_FLAG (R29). -/
  drawFlag : Bool
  /-- CLEAR_FLAG (R30). -/
  clearFlag : Bool
  /-- FB[0] to FB[31] (R31). -/
  fb : Vector Row 32
  /-- KEY, the pending key (R33). -/
  key : Option Nibble
  /-- DT, the delay timer (R34). -/
  dt : Byte
  /-- RNG, the random generator's state (R35). -/
  rng : Byte
  /-- FAULT (R36). -/
  fault : Option FaultRecord
  /-- TIMER_RUN (R37). -/
  timerRun : Bool
  /-- MODEL's own: what the agents do next, oldest first; when it is empty every step is a cycle (log entry 3). -/
  schedule : List Event
deriving DecidableEq, Repr

/-- The block right after a load of the empty ROM, the block's only reset (R350, R352): V, I, SP, DT 0, PC 0x200, CUR_OP
0x0000, WAIT and KEY none, flags 0, FB blank, FAULT none, TIMER_RUN 1, MEM the font and zeros (so nothing is listed).
DESIGN CHOICE, unsafe: the seed (log entry 1) and the zeros in the stack's unspecified slots (log entry 2). -/
def State.reset : State where
  params := Config.defaults
  loaded := true
  mem := []
  v := Vector.replicate 16 0
  i := 0
  pc := 0x200
  stack := Vector.replicate 24 0
  sp := 0
  curOp := 0x0000
  wait := none
  drawFlag := false
  clearFlag := false
  fb := Vector.replicate 32 0
  key := none
  dt := 0
  rng := Config.resetSeed
  fault := none
  timerRun := true
  schedule := []

/-- A block never loaded (R132, R358). It "has no state": the fields are place-holders that no step reads, since every
event but a load is refused and a successful load replaces them all but the parameters and the schedule (log entry 4). Only
the outputs of R49 to R51 show them, by the model's own choice (log entry 16). TIMER_RUN is 0: it has no timer agent. -/
def State.neverLoaded : State :=
  { State.reset with loaded := false, timerRun := false }

end Sys2Proof.Machine
end

