-- ==== Sys2Proof/Machine/Ops.lean ====
section
/-! DEFINITION. Sys2Proof/Machine/Ops.lean: the operations every instruction's meaning is made of: memory (20_memory.md),
registers (10_state.md), the call stack, the random generator, and taking a fault (40_cycle.md R131, 60_exceptions.md R319).
There is no return from a fault (R320): only a load leaves the halted state. -/

namespace Sys2Proof.Machine

/-! ### Memory as a list of cells -/

/-- What an address with no cell reads as: the contents after a load of the empty ROM (R68, R350), the font at 0x000 to
0x04F and zero elsewhere. -/
def Memory.unlisted (font : Font) (a : Nat) : Byte :=
  if h : a < 80 then font[a] else 0

/-- The cell of an address. -/
def Memory.find : Memory → Nat → Option Byte
  | [], _ => none
  | (k, b) :: m, a => if k = a then some b else Memory.find m a

/-- The byte an address holds. -/
def Memory.read (font : Font) (m : Memory) (a : Nat) : Byte :=
  (m.find a).getD (Memory.unlisted font a)

/-- A cell in front of cells of higher addresses, left out when it says what the address reads as without it. -/
def Memory.cons (font : Font) (a : Nat) (b : Byte) (m : Memory) : Memory :=
  if b = Memory.unlisted font a then m else (a, b) :: m

/-- Store one byte, keeping the canonical form. -/
def Memory.write (font : Font) : Memory → Nat → Byte → Memory
  | [], a, b => Memory.cons font a b []
  | (k, c) :: m, a, b =>
    if a < k then Memory.cons font a b ((k, c) :: m)
    else if a = k then Memory.cons font a b m
    else (k, c) :: Memory.write font m a b

/-- The canonical form of cells whose addresses are `lo` or more. -/
def Memory.wfFrom (font : Font) : Nat → Memory → Bool
  | _, [] => true
  | lo, (k, b) :: m =>
    decide (lo ≤ k) && decide (k < 0x1000) && (b != Memory.unlisted font k) && Memory.wfFrom font (k + 1) m

/-- The canonical form: addresses below 0x1000 and strictly rising, no cell equal to what its address reads as unlisted. -/
def Memory.wf (font : Font) (m : Memory) : Bool := Memory.wfFrom font 0 m

/-- The memory that holds the bytes of a ROM from address `a` on (R352), over the unlisted contents elsewhere. -/
def Memory.ofRom (font : Font) : Nat → List Byte → Memory
  | _, [] => []
  | a, b :: rom => Memory.cons font a b (Memory.ofRom font (a + 1) rom)

/-! ### Memory of a state -/

/-- The byte at an address, MEM[a]: MemRead(a, 1) of R11, whose bounds check every instruction makes for all its
accesses before the first (`State.withSpan` of Operands.lean, R64, R65) and the fetch by its range check (R126). -/
def State.byteAt (s : State) (a : Nat) : Byte := Memory.read s.params.font s.mem a

/-- MEM as a whole, replaced. -/
def State.setMem (s : State) (m : Memory) : State := { s with mem := m }

/-- MEM[a] <- b: MemWrite(a, 1, b) of R11, its address checked beforehand as for `State.byteAt`. -/
def State.writeByte (s : State) (a : Nat) (b : Byte) : State :=
  s.setMem (Memory.write s.params.font s.mem a b)

/-- The bytes at `a`, `a + 1`, …, in increasing address order (R62). -/
def State.readBytes (s : State) (a : Nat) : Nat → List Byte
  | 0 => []
  | n + 1 => s.byteAt a :: s.readBytes (a + 1) n

/-- Store bytes at `a`, `a + 1`, …, in increasing address order (R62). -/
def State.writeBytes (s : State) (a : Nat) : List Byte → State
  | [] => s
  | b :: bs => (s.writeByte a b).writeBytes (a + 1) bs

/-- MemRead(a, 2), the fetch's big-endian word (R11, R61). -/
def State.wordAt (s : State) (a : Nat) : Word := wordOfBytes (s.byteAt a) (s.byteAt (a + 1))

/-! ### Registers -/

/-- V[x] (R20). -/
def State.reg (s : State) (x : RegIx) : Byte := s.v[x.val]

/-- V[x] <- b (R20): no register is hardwired. -/
def State.setReg (s : State) (x : RegIx) (b : Byte) : State := { s with v := s.v.set x.val b }

/-- V[k] <- b, V[k + 1] <- b', …, in increasing order (R225); there is no register past V[15]. -/
def State.setRegs (s : State) (k : Nat) : List Byte → State
  | [] => s
  | b :: bs => (if h : k < 16 then s.setReg ⟨k, h⟩ b else s).setRegs (k + 1) bs

/-- V[0] to V[x], in increasing order (R224). -/
def State.regsUpTo (s : State) (x : RegIx) : List Byte := s.v.toList.take (x.val + 1)

/-- I <- w (R22). -/
def State.setI (s : State) (w : Word) : State := { s with i := w }

/-- PC <- w, with no check of the target (R24, R159). -/
def State.setPc (s : State) (w : Word) : State := { s with pc := w }

/-- Skip the next instruction: PC <- PC + 2 (R159). -/
def State.skip (s : State) : State := s.setPc (s.pc + 2)

/-- Skip the next instruction if a condition holds (R39, R159). -/
def State.skipIf (s : State) (c : Bool) : State := if c then s.skip else s

/-- DT <- b, one atomic write (R34, R328). -/
def State.setDt (s : State) (b : Byte) : State := { s with dt := b }

/-- WAIT <- w (R28). -/
def State.setWait (s : State) (w : Option RegIx) : State := { s with wait := w }

/-- FAULT <- f (R36). -/
def State.setFault (s : State) (f : Option FaultRecord) : State := { s with fault := f }

/-! ### The random generator (R192) -/

/-- RngStep, the source's xorshift with its shift counts 13, 17, 5 taken modulo 8 and its results truncated to 8 bits. -/
def rngStep (s : Byte) : Byte :=
  let s1 := s ^^^ (s <<< 5)
  let s2 := s1 ^^^ (s1 >>> 1)
  s2 ^^^ (s2 <<< 5)

/-! ### Taking a fault -/

/-- `raise F(info)` inside an instruction (R12): FAULT takes the record of R36 and R131 and the instruction does nothing
else. PC is the faulting instruction's address plus 2 (R128) and CUR_OP the word fetched (R127). The cycle then puts the
rest of the state back (`commit`). -/
def raise (code : FaultCode) (addr : Word) (s : State) : Host.Outcome State Fault Refusal :=
  .next (s.setFault (some { code := code, pc := s.pc - 2, opcode := s.curOp, addr := addr }))

/-- The fault commit (R131, R319): after a cycle from `start` that recorded a fault, every piece of the execution agent's
state is put back to its value at `start`, and FAULT holds the record. DT is not put back. -/
def discard (start s : State) : State := { start with fault := s.fault, dt := s.dt }

/-- The end of a cycle's step 6 (R120, R131): a cycle that recorded a fault is discarded, any other stands. -/
def commit (start : State) : Host.Outcome State Fault Refusal → Host.Outcome State Fault Refusal
  | .next s => .next (if s.fault.isSome then discard start s else s)
  | .fault r => .fault r
  | .refused r => .refused r

end Sys2Proof.Machine
end

