-- ==== Sys2Proof/Machine/Flags.lean ====
section
/-! DEFINITION. Sys2Proof/Machine/Flags.lean: every flag computation of the spec (10_state.md R21, 42_alu.md R186 to R194,
44_display.md R251), from the exact integer result, and the order in which result and flag are written (R193). -/

namespace Sys2Proof.Machine

/-- A flag as VF holds it: 1 or 0. -/
def flagByte (c : Bool) : Byte := if c then 1 else 0

/-- Carry of an addition: the sum is greater than 255 (R186, R194). -/
def carry (a b : Byte) : Bool := decide (255 < a.toNat + b.toNat)

/-- No borrow of a subtraction: minuend ≥ subtrahend (R187, R189, R194). -/
def notBorrow (minuend subtrahend : Byte) : Bool := decide (subtrahend.toNat ≤ minuend.toNat)

/-- The bit a right shift moves out, bit 0 (R188). -/
def outRight (b : Byte) : Bool := b.getLsbD 0

/-- The bit a left shift moves out, bit 7 (R190). -/
def outLeft (b : Byte) : Bool := b.getLsbD 7

/-- Some lit pixel of the row is under a 1 bit of the sprite's word (R251). -/
def overlaps (row w : Row) : Bool := (row &&& w) != 0

/-- Write the result to V[x], then the flag to VF: with x = 15 the flag wins (R193). -/
def State.setRegFlag (s : State) (x : RegIx) (b : Byte) (c : Bool) : State := (s.setReg x b).setReg vf (flagByte c)

end Sys2Proof.Machine
end

