-- ==== Sys2Proof/Machine/Operands.lean ====
section
/-! DEFINITION. Sys2Proof/Machine/Operands.lean: the operand forms (30_encoding.md R92, 43_index_memory.md R226): a register
V[x] (`State.reg`), an 8-bit immediate used as is, a 12-bit address zero-extended, and the one addressing mode, I + k. -/

namespace Sys2Proof.Machine

/-- zext_16(nnn): the address as PC or I takes it (R92). -/
def zext16 (nnn : Addr) : Word := nnn.setWidth 16

/-- A register's or a key's value as a 16-bit addend, zext_16 (R158, R221). -/
def zextByte (b : Byte) : Word := b.setWidth 16

/-- A key as a register value, zext_8(k) (R124, R287). -/
def keyByte (k : Nibble) : Byte := k.setWidth 8

/-- The target of JP V0, nnn: zext_16(nnn) + zext_16(V[0]) (R158). -/
def jumpOffsetTarget (nnn : Addr) (v0 : Byte) : Word := zext16 nnn + zextByte v0

/-- The address of the glyph of a digit, 5 * (V[x] mod 16) (R222). -/
def glyphAddress (b : Byte) : Word := BitVec.ofNat 16 (5 * (b.toNat % 16))

/-- The address of byte k of a run: I + k, an unbounded sum (R64, R226). -/
def State.indexAddr (s : State) (k : Nat) : Nat := s.i.toNat + k

/-- The `n` bytes at I, I + 1, … that an instruction is about to access all exist (R64, R65). -/
def State.spanInBounds (s : State) (n : Nat) : Bool := n == 0 || decide (s.i.toNat + n ≤ 0x1000)

/-- The lowest out-of-range address of a run from I, max(I, 0x1000) (R65, R226). -/
def State.lowestBadAddr (s : State) : Word := if s.i.toNat < 0x1000 then 0x1000 else s.i

/-- An instruction that accesses the `n` bytes from I checks every one before it moves any (R65): BoundsViolation, or go on. -/
def State.withSpan (s : State) (n : Nat) (go : State) : Host.Outcome State Fault Refusal :=
  if s.spanInBounds n then .next go else raise .boundsViolation s.lowestBadAddr s

/-- "Pressed" (R287): KEY = some(k) and the whole 8-bit value equals k zero-extended. -/
def State.pressed (s : State) (b : Byte) : Bool :=
  match s.key with
  | none => false
  | some k => b == keyByte k

end Sys2Proof.Machine
end

