-- ==== Sys2Proof/Machine/Display.lean ====
section
/-! DEFINITION. Sys2Proof/Machine/Display.lean: the framebuffer engine's operations clear, draw and row (44_display.md R250 to
R257, 10_state.md R53) and the two instructions that use them, CLS and DRW. -/

namespace Sys2Proof.Machine

/-- clear(): every row 0, CLEAR_FLAG 1 (R250). -/
def State.clear (s : State) : State := { s with fb := Vector.replicate 32 0, clearFlag := true }

/-- A sprite byte as a row word: its bit 7 on column xpos, the bits that pass column 63 going on at column 0 (R251, R256,
R257). -/
def spriteWord (b : Byte) (xpos : Nat) : Row := ((b.setWidth 64) <<< 56).rotateRight xpos

/-- The row on which sprite row r lands, (ypos + r) mod 32 (R251). -/
def spriteRow (ypos r : Nat) : Fin 32 := ⟨(ypos + r) % 32, Nat.mod_lt _ (by decide)⟩

/-- The loop of draw() from sprite row r on: the rows and the collision so far, and after (R251). -/
def drawRows (xpos ypos : Nat) : Nat → List Byte → Vector Row 32 → Bool → Vector Row 32 × Bool
  | _, [], fb, coll => (fb, coll)
  | r, b :: sprite, fb, coll =>
    let row := spriteRow ypos r
    let w := spriteWord b xpos
    drawRows xpos ypos (r + 1) sprite (fb.set row.val (fb[row.val] ^^^ w)) (coll || overlaps fb[row.val] w)

/-- draw(xpos, ypos, sprite): XOR the sprite, raise DRAW_FLAG, and return the collision bit (R251, R253). -/
def State.draw (s : State) (xpos ypos : Nat) (sprite : List Byte) : State × Bool :=
  let d := drawRows xpos ypos 0 sprite s.fb false
  ({ s with fb := d.1, drawFlag := true }, d.2)

/-- Pixel (c, r): bit 63 - c of FB[r] (R32). -/
def State.pixel (s : State) (c : Nat) (r : Fin 32) : Bool := s.fb[r.val].getLsbD (63 - c)

/-- CLS (R254). -/
def execCls (s : State) : Host.Outcome State Fault Refusal := .next s.clear

/-- What DRW does once its sprite is known to lie in memory: V[x] mod 64 and V[y] are read first, then the n bytes from I,
and VF takes the collision bit last (R193, R255). -/
def drawSprite (x y : RegIx) (n : Nibble) (s : State) : State :=
  let d := s.draw ((s.reg x).toNat % 64) (s.reg y).toNat (s.readBytes (s.indexAddr 0) n.toNat)
  d.1.setReg vf (flagByte d.2)

/-- DRW Vx, Vy, n (R255). -/
def execDrw (x y : RegIx) (n : Nibble) (s : State) : Host.Outcome State Fault Refusal :=
  s.withSpan n.toNat (drawSprite x y n s)

end Sys2Proof.Machine
end

