-- ==== Sys2Proof/Machine/Index.lean ====
section
/-! DEFINITION. Sys2Proof/Machine/Index.lean: the index register and the memory instructions (43_index_memory.md). I is not
changed by the three that access memory (R226). -/

namespace Sys2Proof.Machine

/-- LD I, nnn (R220): I is checked only when used. -/
def execLdI (nnn : Addr) (s : State) : Host.Outcome State Fault Refusal := .next (s.setI (zext16 nnn))

/-- ADD I, Vx (R221): modulo 65536, VF not written. -/
def execAddI (x : RegIx) (s : State) : Host.Outcome State Fault Refusal := .next (s.setI (s.i + zextByte (s.reg x)))

/-- LD F, Vx (R222). -/
def execLdF (x : RegIx) (s : State) : Host.Outcome State Fault Refusal := .next (s.setI (glyphAddress (s.reg x)))

/-- The hundreds, tens and units digits of a byte (R223). -/
def bcdDigits (b : Byte) : List Byte :=
  [BitVec.ofNat 8 (b.toNat / 100), BitVec.ofNat 8 (b.toNat / 10 % 10), BitVec.ofNat 8 (b.toNat % 10)]

/-- LD B, Vx (R223): the digits to MEM[I], MEM[I + 1], MEM[I + 2]. -/
def execLdB (x : RegIx) (s : State) : Host.Outcome State Fault Refusal :=
  s.withSpan 3 (s.writeBytes (s.indexAddr 0) (bcdDigits (s.reg x)))

/-- LD [I], Vx (R224): V[0] to V[x] to MEM[I] to MEM[I + x]. -/
def execDump (x : RegIx) (s : State) : Host.Outcome State Fault Refusal :=
  s.withSpan (x.val + 1) (s.writeBytes (s.indexAddr 0) (s.regsUpTo x))

/-- LD Vx, [I] (R225): MEM[I] to MEM[I + x] to V[0] to V[x]. -/
def execFill (x : RegIx) (s : State) : Host.Outcome State Fault Refusal :=
  s.withSpan (x.val + 1) (s.setRegs 0 (s.readBytes (s.indexAddr 0) (x.val + 1)))

end Sys2Proof.Machine
end

