-- ==== Sys2Proof/Machine/TimerKeys.lean ====
section
/-! DEFINITION. Sys2Proof/Machine/TimerKeys.lean: timer and key instructions (45_timer_keys.md). None of them faults, and
none changes KEY (R33). -/

namespace Sys2Proof.Machine

/-- Fx07: skip if V[x] equals DT (R280), or V[x] <- DT (R281), as FX07_MODE says (R7). One atomic read of DT. -/
def execLdVxDt (x : RegIx) (s : State) : Host.Outcome State Fault Refusal :=
  match s.params.fx07Mode with
  | .skipIfEqual => .next (s.skipIf (s.reg x == s.dt))
  | .load => .next (s.setReg x s.dt)

/-- LD DT, Vx (R282): one atomic write of DT. -/
def execLdDtVx (x : RegIx) (s : State) : Host.Outcome State Fault Refusal := .next (s.setDt (s.reg x))

/-- LD ST, Vx: no effect, the block has no sound timer (R286). -/
def execLdStVx (_x : RegIx) (s : State) : Host.Outcome State Fault Refusal := .next s

/-- SKP Vx (R283). -/
def execSkp (x : RegIx) (s : State) : Host.Outcome State Fault Refusal := .next (s.skipIf (s.pressed (s.reg x)))

/-- SKNP Vx (R284). -/
def execSknp (x : RegIx) (s : State) : Host.Outcome State Fault Refusal := .next (s.skipIf (!s.pressed (s.reg x)))

/-- LD Vx, K (R285): the wait starts; the key is written by a later cycle (R124). -/
def execLdVxK (x : RegIx) (s : State) : Host.Outcome State Fault Refusal := .next (s.setWait (some x))

end Sys2Proof.Machine
end

