-- ==== Sys2Proof/Machine/Cycle.lean ====
section
/-! DEFINITION. Sys2Proof/Machine/Cycle.lean: `cycle()`, the execution agent's step (40_cycle.md R120): the halted check, the
key-wait, the fetch with its checks, the dispatch and the fault commit. -/

namespace Sys2Proof.Machine

/-- The fetch checks, in their order (R126): range, then parity. -/
def fetchFault (pc : Word) : Option FaultCode :=
  if pc.toNat < 0x200 ∨ 0x1000 ≤ pc.toNat then some .pcOutOfRange
  else if pc.toNat % 2 = 1 then some .pcMisaligned
  else none

/-- The opcode at PC (R127). -/
def State.opcode (s : State) : Word := s.wordAt s.pc.toNat

/-- The state an instruction rule sees (steps 3 to 5 of R120): RNG advanced (R125), CUR_OP written (R127), PC past the
instruction (R128). -/
def State.fetched (s : State) : State := { s with rng := rngStep s.rng, curOp := s.opcode, pc := s.pc + 2 }

/-- The state a fetch that faults leaves: discarded, with the opcode field 0x0000 and the checked PC (R126, R131). -/
def State.fetchFaulted (s : State) (code : FaultCode) : State :=
  s.setFault (some { code := code, pc := s.pc, opcode := 0x0000, addr := 0x0000 })

/-- Step 6 (R129): the word's instruction rule, or nothing for an unmapped word (R104). -/
def execute (w : Word) (s : State) : Host.Outcome State Fault Refusal :=
  match decode w with
  | .ok i => exec i s
  | .error _ => .next s

/-- Steps 2 to 6: a non-blocked cycle. -/
def runCycle (s : State) : Host.Outcome State Fault Refusal :=
  match fetchFault s.pc with
  | some code => .next (s.fetchFaulted code)
  | none => commit s (execute s.opcode s.fetched)

/-- Step 1: a blocked cycle, waiting for V[t]'s key. With no key nothing changes (R123); with one it is written to V[t]
and the wait ends (R124). KEY is not consumed. -/
def blockedCycle (t : RegIx) (s : State) : State :=
  match s.key with
  | none => s
  | some k => (s.setReg t (keyByte k)).setWait none

/-- cycle() (R120). A halted block does nothing (R121); one that was never loaded is refused (R358). -/
def cycle (s : State) : Host.Outcome State Fault Refusal :=
  if !s.loaded then .refused .unloaded
  else if s.fault.isSome then .next s
  else
    match s.wait with
    | some t => .next (blockedCycle t s)
    | none => runCycle s

end Sys2Proof.Machine
end

