-- ==== Sys2Proof/Machine/Load.lean ====
section
/-! DEFINITION. Sys2Proof/Machine/Load.lean: the load port, the block's reset (10_state.md R45, 70_reset_and_hazards.md R350 to
R359). -/

namespace Sys2Proof.Machine

/-- What the load port answers (R45, R316). -/
inductive LoadAnswer where
  | ok
  | romTooLarge
deriving DecidableEq, Repr

/-- The state a successful load leaves (R350, R352, R359): everything is replaced; `slots` is what the call stack's slots,
which the spec leaves unspecified, come to hold (R25, U13). The parameters and what the agents do next stay. -/
def State.loadRom (s : State) (rom : List Byte) (seed : Byte) (slots : Vector Word 24) : State where
  params := s.params
  loaded := true
  mem := Memory.ofRom s.params.font 0x200 rom
  v := Vector.replicate 16 0
  i := 0
  pc := 0x200
  stack := slots
  sp := 0
  curOp := 0x0000
  wait := none
  drawFlag := false
  clearFlag := false
  fb := Vector.replicate 32 0
  key := none
  dt := 0
  rng := seed
  fault := none
  timerRun := true
  schedule := s.schedule

/-- load(rom, seed): RomTooLarge and no change for a ROM longer than 0xD00 bytes (R351), else ok (R350). -/
def loadPort (rom : List Byte) (seed : Byte) (slots : Vector Word 24) (s : State) : LoadAnswer × State :=
  if 0xD00 < rom.length then (.romTooLarge, s) else (.ok, s.loadRom rom seed slots)

end Sys2Proof.Machine
end

