-- ==== Sys2Proof/Machine/Agents.lean ====
section
/-! DEFINITION. Sys2Proof/Machine/Agents.lean: the timer agent (60_exceptions.md R325 to R330), the host's ports (10_state.md
R45 to R52, 60_exceptions.md R337), and what one event of a schedule does. Ticks and host actions fall between cycles
(R134, R337). -/

namespace Sys2Proof.Machine

/-- tick(): one atomic saturating decrement of DT while TIMER_RUN = 1 (R325), whatever the execution agent's state (R329). -/
def tick (s : State) : State :=
  if s.timerRun then s.setDt (if s.dt = 0 then 0 else s.dt - 1) else s

/-- set_key(k) (R47): a new value replaces the old (R33). -/
def setKeyPort (k : Option Nibble) (s : State) : State := { s with key := k }

/-- ack_draw() (R49). -/
def ackDrawPort (s : State) : State := { s with drawFlag := false }

/-- ack_clear() (R49). -/
def ackClearPort (s : State) : State := { s with clearFlag := false }

/-- stop_timer() (R52). -/
def stopTimerPort (s : State) : State := { s with timerRun := false }

/-- row(r) (R48, R252): FB[r]; none, no answer, for r outside 0 to 31 and for a block never loaded (R358). -/
def rowPort (r : Nat) (s : State) : Option Row :=
  if h : r < 32 then (if s.loaded then some s.fb[r] else none) else none

/-- The output draw_flag (R49). DESIGN CHOICE (log entry 16): on a block never loaded, where the spec says nothing of it, it
shows the cell as it stands, like the three outputs below. -/
def drawFlagPort (s : State) : Bool := s.drawFlag
/-- The output clear_flag (R49). Before the first load: log entry 16 (DESIGN CHOICE). -/
def clearFlagPort (s : State) : Bool := s.clearFlag
/-- The output current_opcode (R50). Before the first load: log entry 16 (DESIGN CHOICE). -/
def currentOpcodePort (s : State) : Word := s.curOp
/-- The output fault (R51). Before the first load: log entry 16 (DESIGN CHOICE). -/
def faultPort (s : State) : Option FaultRecord := s.fault

/-- The numbers of the fault codes (R310); 0 is no fault. -/
def FaultCode.number : FaultCode → Nat
  | .boundsViolation => 1
  | .stackOverflow => 2
  | .stackUnderflow => 3
  | .pcOutOfRange => 4
  | .pcMisaligned => 5

/-- The code field as the fault port shows it, 3 bits (R36, R310). Before the first load: log entry 16 (DESIGN CHOICE). -/
def faultCodePort (s : State) : Nat :=
  match s.fault with
  | none => 0
  | some r => r.code.number

/-- One event. A block that was never loaded has no state to step: only a load acts on it (R329, R358, log entry 4). -/
def perform (e : Event) (s : State) : Host.Outcome State Fault Refusal :=
  match e with
  | .load rom seed slots => .next (loadPort rom seed slots s).2
  | .cycle => cycle s
  | .tick => if s.loaded then .next (tick s) else .refused .unloaded
  | .setKey k => if s.loaded then .next (setKeyPort k s) else .refused .unloaded
  | .ackDraw => if s.loaded then .next (ackDrawPort s) else .refused .unloaded
  | .ackClear => if s.loaded then .next (ackClearPort s) else .refused .unloaded
  | .stopTimer => if s.loaded then .next (stopTimerPort s) else .refused .unloaded

/-- One step of the block: the schedule's first event, or a cycle when the schedule is empty. -/
def stepBlock (s : State) : Host.Outcome State Fault Refusal :=
  match s.schedule with
  | [] => cycle s
  | e :: rest => perform e { s with schedule := rest }

/-- The PC of `withFetchWord`: the state's own where the fetch accepts it (R126), else the reset PC. -/
def fetchablePc (pc : Word) : Word := if (fetchFault pc).isNone then pc else 0x200

/-- The state whose next step fetches and runs the word: it stands in memory at PC, big-endian (R61), on a block that is
loaded, not halted and not waiting for a key, at a PC the fetch accepts, with no other event due before the cycle. -/
def placeFetchWord (s : State) (w : Word) : State :=
  let s1 : State :=
    { s with loaded := true, fault := none, wait := none, schedule := [], pc := fetchablePc s.pc }
  s1.writeBytes s1.pc.toNat (bytesOfWord w)

end Sys2Proof.Machine
end

