-- ==== Sys2Proof/Machine/Step.lean ====
section
/-! DEFINITION. Sys2Proof/Machine/Step.lean: the machine's one step, over Machine/Agents.lean and Machine/Cycle.lean. -/

namespace Sys2Proof.Machine

/-- One step: the next event of the schedule, or a cycle when none is left (40_cycle.md R120, R134, log entry 3). -/
def step (s : State) : Host.Outcome State Fault Refusal := stepBlock s

/-- The state whose next step runs the instruction whose first word is `w`'s bits below `nbits`, numbered as
spec/opcode_table.json numbers them (log entry 5). -/
def State.withFetchWord (s : State) (nbits w : Nat) : State := placeFetchWord s (BitVec.ofNat 16 (w % 2 ^ nbits))

end Sys2Proof.Machine
end

