-- ==== Sys2Proof/Safety.lean ====
section
/-! DEFINITION. Sys2Proof/Safety.lean: the terms in which claims are made: the states of the execution agent (40_cycle.md
R132), the invariant of a run, and the words statements use for "this word decodes so", "nothing else changed" and "this
pixel of the sprite". -/

namespace Sys2Proof.Machine

/-! ### The execution agent's states (R132) -/

/-- RUNNING: the next cycle is not blocked. -/
def State.Running (s : State) : Prop := s.loaded = true ∧ s.fault = none ∧ s.wait = none

/-- WAITING(t): in the key-wait state (R28). -/
def State.Waiting (s : State) (t : RegIx) : Prop := s.loaded = true ∧ s.fault = none ∧ s.wait = some t

/-- HALTED: a fault has been recorded (R121). -/
def State.Halted (s : State) : Prop := s.loaded = true ∧ s.fault ≠ none

/-- The fetch accepts this PC: in [0x200, 0x1000) and even (R24, R126). -/
def FetchAccepts (pc : Word) : Prop := 0x200 ≤ pc.toNat ∧ pc.toNat < 0x1000 ∧ pc.toNat % 2 = 0

/-- The state inside a cycle, after the RNG advance, the fetch and the PC increment (R125, R127, R128), written from the
rules and not from the cycle's own definition. -/
def State.inCycle (s : State) : State :=
  { s with
    rng := rngStep s.rng
    curOp := wordOfBytes (s.byteAt s.pc.toNat) (s.byteAt (s.pc.toNat + 1))
    pc := s.pc + 2 }

/-! ### The invariant -/

/-- What a fault record says hangs together (R36, R126, R310): a fetch fault's opcode field is 0x0000 and its pc is one the
fetch refuses; any other fault's pc is one the fetch accepts; addr is an out-of-range address for BoundsViolation, 0x0000
for every other code. -/
def FaultRecord.Coherent (r : FaultRecord) : Prop :=
  match r.code with
  | .pcOutOfRange => (r.pc.toNat < 0x200 ∨ 0x1000 ≤ r.pc.toNat) ∧ r.opcode = 0 ∧ r.addr = 0
  | .pcMisaligned =>
    (0x200 ≤ r.pc.toNat ∧ r.pc.toNat < 0x1000 ∧ r.pc.toNat % 2 = 1) ∧ r.opcode = 0 ∧ r.addr = 0
  | .boundsViolation => FetchAccepts r.pc ∧ 0x1000 ≤ r.addr.toNat
  | .stackOverflow | .stackUnderflow => FetchAccepts r.pc ∧ r.addr = 0

/-- A return address as CALL pushes it: the address after an instruction that was fetched (R153, R161). -/
def ReturnAddress (w : Word) : Prop := 0x202 ≤ w.toNat ∧ w.toNat ≤ 0x1000 ∧ w.toNat % 2 = 0

/-- What holds between any two steps of a run: memory in its canonical form; PC at most 0x10FE, so that it never wraps
(R24); every occupied stack slot a return address (R25, R161); a halted agent is not waiting (R132); the fault record
coherent. Every state a load leaves meets it. -/
structure State.Inv (s : State) : Prop where
  memory : Memory.wf s.params.font s.mem = true
  pcBound : s.pc.toNat ≤ 0x10FE
  returns : ∀ (j : Nat) (h : j < s.sp.val), ReturnAddress (s.stack[j]'(by have := s.sp.isLt; omega))
  haltedNotWaiting : s.fault = none ∨ s.wait = none
  record : ∀ r, s.fault = some r → r.Coherent

/-! ### Words of the statements -/

/-- Every word whose bits under `mask` are `pattern` decodes to the instruction `f` reads from it (R93). -/
def DecodesAs (mask pattern : Word) (f : Word → Instr) : Prop := ∀ w : Word, w &&& mask = pattern → decode w = .ok (f w)

/-- Every byte of memory reads as before. -/
def SameBytes (s t : State) : Prop := ∀ a, t.byteAt a = s.byteAt a

/-- Every byte of memory outside the `n` bytes from `a` reads as before. -/
def SameBytesOutside (a n : Nat) (s t : State) : Prop := ∀ b, b < a ∨ a + n ≤ b → t.byteAt b = s.byteAt b

/-- Every register but V[x] reads as before. -/
def SameRegsBut (x : RegIx) (s t : State) : Prop := ∀ j, j ≠ x → t.reg j = s.reg j

/-- Every register but V[x] and VF reads as before. -/
def SameRegsButFlag (x : RegIx) (s t : State) : Prop := ∀ j, j ≠ x → j ≠ 15 → t.reg j = s.reg j

/-- Nothing but registers V0..VF changed; memory byte for byte as before. -/
def OnlyRegs (s t : State) : Prop := t = { s with v := t.v } ∧ SameBytes s t

/-- Nothing but PC changed; memory byte for byte as before. -/
def OnlyPc (s t : State) : Prop := t = { s with pc := t.pc } ∧ SameBytes s t

/-- Nothing but I changed; memory byte for byte as before. -/
def OnlyIndex (s t : State) : Prop := t = { s with i := t.i } ∧ SameBytes s t

/-- The pixel that an n-byte sprite at I, drawn at column `xpos` and row `ypos`, puts on column `c` of row `r`: the bit of
the sprite's grid that wraps onto that place, written column by column and not as a rotation (R251, R256, R257). -/
def State.spritePixel (s : State) (xpos ypos n : Nat) (c : Nat) (r : Fin 32) : Bool :=
  let k := (r.val + 32 - ypos % 32) % 32
  let j := (c + 64 - xpos % 64) % 64
  decide (k < n) && decide (j < 8) && (s.byteAt (s.i.toNat + k)).getLsbD (7 - j)

/-- The record that a fault raised inside this instruction leaves in FAULT (R36, R131). -/
def State.recordOf (s : State) (code : FaultCode) (addr : Word) : FaultRecord :=
  { code := code, pc := s.pc - 2, opcode := s.curOp, addr := addr }

/-- The lowest out-of-range address of a run from I, max(I, 0x1000) (R65, R226). -/
def State.badAddr (s : State) : Word := BitVec.ofNat 16 (max s.i.toNat 0x1000)

end Sys2Proof.Machine
end

