-- ==== Sys2Proof/Certificates/Slice0/Obligations.lean ====
section
/-! DEFINITION. Sys2Proof/Certificates/Slice0/Obligations.lean: the statements for the provers. Each docstring names the rules
of spec/ it formalises. OBLIGATIONS.json lists them in this order. Where a statement speaks of `schedule`, it speaks of the
model's own field for the order of cycles, ticks and host actions (log entry 3). -/

open Sys2Proof Sys2Proof.Machine

/-! ## Load and reset -/

/-- What the load answers and leaves, for every ROM, every seed and every state it replaces (R350, R351). Three clauses are the
model's own choices: the stack's unspecified slots are the load's `slots`, any values (log entry 2); what is left of the
schedule stays (log entry 3); the parameters stay (log entry 7). -/
def Obligations.LoadInitialisesTheWholeBlock : Prop :=
  ∀ (s : State) (rom : List Byte) (seed : Byte) (slots : Vector Word 24),
    (0xD00 < rom.length → loadPort rom seed slots s = (.romTooLarge, s)) ∧
    (rom.length ≤ 0xD00 → ∃ t, loadPort rom seed slots s = (.ok, t) ∧
      (∀ a, a < 0x1000 → t.byteAt a =
        if h : a < 80 then s.params.font[a] else if a < 0x200 then 0 else rom.getD (a - 0x200) 0) ∧
      (∀ x, t.reg x = 0) ∧ t.i = 0 ∧ t.pc = 0x200 ∧ t.sp = 0 ∧ t.curOp = 0x0000 ∧ t.wait = none ∧ t.key = none ∧
      t.drawFlag = false ∧ t.clearFlag = false ∧ (∀ r : Fin 32, t.fb[r.val] = 0) ∧ t.dt = 0 ∧ t.rng = seed ∧
      t.fault = none ∧ t.timerRun = true ∧ t.loaded = true ∧ t.params = s.params ∧ t.stack = slots ∧
      t.schedule = s.schedule)

/-- R316: a ROM longer than 0xD00 bytes is answered RomTooLarge and loads nothing; as an event of the schedule it changes
nothing but the schedule. -/
def Obligations.OversizedRomLoadsNothing : Prop :=
  ∀ (s : State) (rom : List Byte) (seed : Byte) (slots : Vector Word 24) (rest : List Event), 0xD00 < rom.length →
    loadPort rom seed slots s = (.romTooLarge, s) ∧
    (s.schedule = .load rom seed slots :: rest → step s = .next { s with schedule := rest })

/-- The model's reset is the load of the empty ROM on a block never loaded, with the seed of log entry 1 and the slot
contents of log entry 2, which are the model's choices; memory is then the default font and zeros. -/
def Obligations.ResetIsTheLoadOfTheEmptyRom : Prop :=
  loadPort [] Config.resetSeed (Vector.replicate 24 0) State.neverLoaded = (.ok, State.reset) ∧
  ∀ a, State.reset.byteAt a = if h : a < 80 then Config.standardFont[a] else 0

/-- The state after reset meets the invariant. -/
def Obligations.ResetMeetsTheInvariant : Prop := State.Inv State.reset

/-- Every step, of every agent, keeps the invariant: canonical memory, PC at most 0x10FE, return addresses on the stack,
no halted agent waiting, a coherent fault record (R24, R25, R36, R132, R161). -/
def Obligations.StepKeepsTheInvariant : Prop :=
  ∀ s t : State, State.Inv s → step s = .next t → State.Inv t

/-! ## Encoding -/

/-- R91: the fields of a word, as the digits of its number. -/
def Obligations.FieldsAreTheBitsOfTheWord : Prop :=
  ∀ w : Word,
    (famField w).toNat = w.toNat / 4096 ∧ (xField w).val = w.toNat / 256 % 16 ∧ (yField w).val = w.toNat / 16 % 16 ∧
    (nField w).toNat = w.toNat % 16 ∧ (kkField w).toNat = w.toNat % 256 ∧ (nnnField w).toNat = w.toNat % 4096

/-- Decoding the encoding of any well-formed instruction gives it back, with every operand at every value. -/
def Obligations.DecodeOfEncodeIsTheInstruction : Prop :=
  ∀ i : Instr, i.wellFormed = true → decode (encode i) = .ok i

/-- What a word decodes to is well formed and the word matches its row's mask and pattern (R93, R94, R100); and the word is
the instruction's encoding, but for op[11:8] of CLS and RET, which the decoder does not examine. That the encoding has 0
there is the model's choice (log entry 13). -/
def Obligations.DecodedWordMatchesItsRow : Prop :=
  ∀ (w : Word) (i : Instr), decode w = .ok i →
    i.wellFormed = true ∧ w &&& i.mask = i.pattern ∧
    (encode i = w ∨ ((i = .cls ∨ i = .ret) ∧ encode i = w &&& 0xF0FF))

/-- R104: the unmapped words are exactly those the rule lists, and a cycle that fetches one advances RNG, writes CUR_OP,
advances PC by 2 and changes nothing else; so does one that fetches a SYS word. -/
def Obligations.UnmappedWordsRunAsNoOps : Prop :=
  (∀ w : Word, (∃ u, decode w = .error u) ↔
    ((famField w = 0x8 ∧ nField w ∈ [0x8, 0x9, 0xA, 0xB, 0xC, 0xD, 0xF]) ∨
     (famField w = 0xE ∧ kkField w ∉ [0x9E, 0xA1]) ∨
     (famField w = 0xF ∧ kkField w ∉ [0x07, 0x0A, 0x15, 0x18, 0x1E, 0x29, 0x33, 0x55, 0x65]))) ∧
  (∀ s : State, s.schedule = [] → s.Running → FetchAccepts s.pc →
    (∃ u, decode (wordOfBytes (s.byteAt s.pc.toNat) (s.byteAt (s.pc.toNat + 1))) = .error u) ∨
    (∃ nnn, decode (wordOfBytes (s.byteAt s.pc.toNat) (s.byteAt (s.pc.toNat + 1))) = .ok (.sys nnn)) →
    step s = .next s.inCycle)

/-- R95, R96, R99: words written out from the patterns, decoded (a sanity check of the decoder). -/
def Obligations.WordsOfTheMapDecode : Prop :=
  decode 0x01E0 = .ok .cls ∧ decode 0x00EE = .ok .ret ∧ decode 0x0123 = .ok (.sys 0x123) ∧
  decode 0x1208 = .ok (.jp 0x208) ∧ decode 0x6005 = .ok (.ldImm 0 0x05) ∧ decode 0x8F14 = .ok (.addReg 15 1) ∧
  decode 0xA2F0 = .ok (.ldI 0x2F0) ∧ decode 0xD125 = .ok (.drw 1 2 5) ∧ decode 0xE19E = .ok (.skp 1) ∧
  decode 0xF30A = .ok (.ldVxK 3) ∧ decode 0x801A = .error (.family8 0xA)

/-! ## The cycle -/

/-- R127, R128, R129, R131: a step of a running block whose schedule is empty, at a PC the fetch accepts, runs the decoded
instruction on the state after the RNG advance, the fetch and the PC increment; a fault it records discards the rest. -/
def Obligations.StepRunsTheDecodedInstruction : Prop :=
  ∀ (s : State) (i : Instr), s.schedule = [] → s.Running → FetchAccepts s.pc →
    decode (wordOfBytes (s.byteAt s.pc.toNat) (s.byteAt (s.pc.toNat + 1))) = .ok i →
    ∀ t, exec i s.inCycle = .next t →
      step s = .next (if t.fault = none then t else { s with fault := t.fault, dt := t.dt })

/-- A `cycle` at the head of the schedule is the step of the block without it: where the host and the timer agent have
nothing to do, the two ways of asking for a cycle agree up to what is left of the schedule (R134). -/
def Obligations.ScheduledCycleIsTheUnscheduledCycle : Prop :=
  ∀ (s : State) (rest : List Event),
    (∀ t, step { s with schedule := [] } = .next t →
      step { s with schedule := .cycle :: rest } = .next { t with schedule := rest }) ∧
    (∀ r, step { s with schedule := [] } = .refused r → step { s with schedule := .cycle :: rest } = .refused r)

/-- Every instruction answers a next state: none ends the machine, whatever the state (R105, R317, R323). -/
def Obligations.EveryInstructionAnswersNext : Prop :=
  ∀ (i : Instr) (s : State), ∃ t, exec i s = .next t

/-- R121: a halted block's cycle changes nothing, and through any schedule without a successful load it stays halted with
the same record and the same execution state; only the timer agent's and the host's own cells can change. -/
def Obligations.HaltedBlockStaysUntilALoad : Prop :=
  (∀ s : State, s.Halted → s.schedule = [] → step s = .next s) ∧
  (∀ (n : Nat) (s t : State), s.Halted →
    (∀ rom seed slots, Event.load rom seed slots ∈ s.schedule → 0xD00 < rom.length) →
    Sys2Proof.core.run n s = .next t →
    t = { s with dt := t.dt, key := t.key, drawFlag := t.drawFlag, clearFlag := t.clearFlag, timerRun := t.timerRun,
                 schedule := t.schedule })

/-- R123: blocked with no key, any number of cycles changes nothing at all. -/
def Obligations.BlockedCyclesChangeNothing : Prop :=
  ∀ (s : State) (x : RegIx), s.Waiting x → s.key = none → s.schedule = [] → ∀ n, Sys2Proof.core.run n s = .next s

/-- R124: the cycle that finds a key writes it, zero-extended, to the target, ends the wait, and does nothing else. -/
def Obligations.KeyResolvesTheWait : Prop :=
  ∀ (s : State) (x : RegIx) (k : Nibble), s.Waiting x → s.key = some k → s.schedule = [] →
    ∃ t, step s = .next t ∧ (t.reg x).toNat = k.toNat ∧ SameRegsBut x s t ∧ t = { s with v := t.v, wait := none }

/-- R126, R314, R315: the fetch checks, range before parity; a PC that passes them raises neither fault. -/
def Obligations.FetchChecksThePc : Prop :=
  ∀ s : State, s.schedule = [] → s.Running →
    (s.pc.toNat < 0x200 ∨ 0x1000 ≤ s.pc.toNat →
      step s = .next { s with fault := some { code := .pcOutOfRange, pc := s.pc, opcode := 0x0000, addr := 0x0000 } }) ∧
    (0x200 ≤ s.pc.toNat → s.pc.toNat < 0x1000 → s.pc.toNat % 2 = 1 →
      step s = .next { s with fault := some { code := .pcMisaligned, pc := s.pc, opcode := 0x0000, addr := 0x0000 } }) ∧
    (FetchAccepts s.pc → ∃ t, step s = .next t ∧
      ∀ r, t.fault = some r → r.code ≠ .pcOutOfRange ∧ r.code ≠ .pcMisaligned)

/-- R319: faults are precise. A cycle that faults leaves the state before it, but for FAULT, which holds the PC of the
faulting instruction, its opcode (0x0000 if the fetch itself faulted) and, for BoundsViolation alone, the address. -/
def Obligations.FaultsArePrecise : Prop :=
  ∀ (s t : State) (r : FaultRecord), s.schedule = [] → s.Running → step s = .next t → t.fault = some r →
    t = { s with fault := some r } ∧ r.pc = s.pc ∧
    r.opcode = (if r.code = .pcOutOfRange ∨ r.code = .pcMisaligned then 0x0000
      else wordOfBytes (s.byteAt s.pc.toNat) (s.byteAt (s.pc.toNat + 1))) ∧
    r.addr = (if r.code = .boundsViolation then s.badAddr else 0x0000)

/-- R310's table: the codes, their numbers (0 for no fault), who raises each and the address field. The clause on the code
port speaks of every state; for a block never loaded, what the port shows is the model's choice (log entry 16). -/
def Obligations.FaultTableOfTheSpec : Prop :=
  (∀ c : FaultCode, c.number = match c with
    | .boundsViolation => 1 | .stackOverflow => 2 | .stackUnderflow => 3 | .pcOutOfRange => 4 | .pcMisaligned => 5) ∧
  (∀ s : State, (s.fault = none → faultCodePort s = 0) ∧ ∀ r, s.fault = some r → faultCodePort s = r.code.number) ∧
  ∀ (s t : State) (r : FaultRecord), s.schedule = [] → s.Running → step s = .next t → t.fault = some r →
    let d := decode (wordOfBytes (s.byteAt s.pc.toNat) (s.byteAt (s.pc.toNat + 1)))
    match r.code with
    | .boundsViolation => r.addr = s.badAddr ∧
        ((∃ x y n, d = .ok (.drw x y n)) ∨ (∃ x, d = .ok (.ldB x) ∨ d = .ok (.dump x) ∨ d = .ok (.fill x)))
    | .stackOverflow => (∃ nnn, d = .ok (.call nnn)) ∧ s.sp = 24 ∧ r.addr = 0x0000
    | .stackUnderflow => d = .ok .ret ∧ s.sp = 0 ∧ r.addr = 0x0000
    | .pcOutOfRange => (s.pc.toNat < 0x200 ∨ 0x1000 ≤ s.pc.toNat) ∧ r.addr = 0x0000
    | .pcMisaligned => s.pc.toNat % 2 = 1 ∧ r.addr = 0x0000

/-- A non-blocked cycle that is not discarded leaves RNG advanced once (R125) and CUR_OP the word fetched (R127), whatever
the instruction. -/
def Obligations.RetiredCycleAdvancesTheGenerator : Prop :=
  ∀ s t : State, s.schedule = [] → s.Running → step s = .next t → t.fault = none →
    t.rng = rngStep s.rng ∧ t.curOp = wordOfBytes (s.byteAt s.pc.toNat) (s.byteAt (s.pc.toNat + 1))

/-- R132: the states of the execution agent and the steps between them. -/
def Obligations.ExecutionAgentStateMachine : Prop :=
  (∀ s : State, s.loaded = false → s.schedule = [] → step s = .refused .unloaded) ∧
  (∀ s : State, s.Running → s.schedule = [] → ∃ t, step s = .next t ∧
    (t.Running ∨ t.Halted ∨ ∃ x, t.Waiting x) ∧
    (∀ x, t.Waiting x ↔ FetchAccepts s.pc ∧
      decode (wordOfBytes (s.byteAt s.pc.toNat) (s.byteAt (s.pc.toNat + 1))) = .ok (.ldVxK x))) ∧
  (∀ (s : State) (x : RegIx), s.Waiting x → s.schedule = [] → ∃ t, step s = .next t ∧
    (s.key = none → t.Waiting x) ∧ (s.key ≠ none → t.Running)) ∧
  (∀ s : State, s.Halted → s.schedule = [] → ∃ t, step s = .next t ∧ t.Halted) ∧
  (∀ (s : State) (rom : List Byte) (seed : Byte) (slots : Vector Word 24) (rest : List Event),
    s.schedule = .load rom seed slots :: rest → ∃ t, step s = .next t ∧
      (rom.length ≤ 0xD00 → t.Running) ∧ (0xD00 < rom.length → t = { s with schedule := rest }))

/-- A block never loaded refuses a cycle, answers no row and has no timer agent to tick (R358), and a load that fits starts it
(R350). That it refuses the host's set_key, ack_draw, ack_clear and stop_timer too is the model's own reading (log entry 4). -/
def Obligations.NeverLoadedBlockIsRefused : Prop :=
  ∀ s : State, s.loaded = false →
    (s.schedule = [] → step s = .refused .unloaded) ∧ (∀ r, rowPort r s = none) ∧
    (∀ e rest, s.schedule = e :: rest → (∀ rom seed slots, e ≠ .load rom seed slots) → step s = .refused .unloaded) ∧
    (∀ rom seed slots rest, s.schedule = .load rom seed slots :: rest → rom.length ≤ 0xD00 →
      ∃ t, step s = .next t ∧ t.Running ∧ t.timerRun = true)

/-- R27: CUR_OP is read by nothing in the block. Two blocks that differ in CUR_OP alone step to blocks that differ, if at
all, in CUR_OP alone. -/
def Obligations.CurrentOpcodeIsReadByNothing : Prop :=
  ∀ (s : State) (c : Word), s.loaded = true → ∃ t t', step s = .next t ∧ step { s with curOp := c } = .next t' ∧
    { t with curOp := 0 } = { t' with curOp := 0 }

/-! ## Timer agent and host ports -/

/-- R325: one tick, in every state of the execution agent: DT one less, saturating at zero, while TIMER_RUN is 1;
nothing else changes. -/
def Obligations.TickDecrementsTheTimer : Prop :=
  ∀ (s : State) (rest : List Event), s.loaded = true → s.schedule = .tick :: rest → ∃ t, step s = .next t ∧
    t.dt.toNat = (if s.timerRun then s.dt.toNat - 1 else s.dt.toNat) ∧ t = { s with dt := t.dt, schedule := rest }

/-- R325, R326: any number of ticks; once TIMER_RUN is 0 no tick changes DT. -/
def Obligations.ManyTicksSaturateAtZero : Prop :=
  ∀ (n : Nat) (s : State) (rest : List Event), s.loaded = true → s.schedule = List.replicate n .tick ++ rest →
    ∃ t, Sys2Proof.core.run n s = .next t ∧
      t.dt.toNat = (if s.timerRun then s.dt.toNat - n else s.dt.toNat) ∧ t = { s with dt := t.dt, schedule := rest }

/-- R327: DT's writers are the tick, which never raises it, the cycle that runs Fx15, and the load. -/
def Obligations.OnlyTickAndSetDelayWriteTheTimer : Prop :=
  ∀ s t : State, step s = .next t → t.dt ≠ s.dt →
    (∃ rest, s.schedule = .tick :: rest ∧ t.dt.toNat < s.dt.toNat) ∨
    (∃ rom seed slots rest, s.schedule = .load rom seed slots :: rest ∧ t.dt = 0) ∨
    ((s.schedule = [] ∨ ∃ rest, s.schedule = .cycle :: rest) ∧
      ∃ x, decode (wordOfBytes (s.byteAt s.pc.toNat) (s.byteAt (s.pc.toNat + 1))) = .ok (.ldDtVx x) ∧
        FetchAccepts s.pc ∧ s.Running ∧ t.dt = s.reg x)

/-- DT's one reader is Fx07 (R327): any other instruction does the same whatever DT holds, and leaves the same state but for
DT, which Fx15 leaves the same as well and every other instruction leaves as it found it. -/
def Obligations.DelayTimerIsReadByFx07Alone : Prop :=
  ∀ (i : Instr) (s t : State) (d : Byte), (∀ x, i ≠ .ldVxDt x) → exec i s = .next t →
    ∃ t', exec i { s with dt := d } = .next t' ∧ { t' with dt := 0 } = { t with dt := 0 } ∧
      ((∀ x, i ≠ .ldDtVx x) → t'.dt = d ∧ t.dt = s.dt) ∧ (∀ x, i = .ldDtVx x → t'.dt = t.dt)

/-- R47, R49, R50, R51 and the stop signal of R52: the host's ports, on any loaded block. -/
def Obligations.HostPortsWriteTheirCells : Prop :=
  ∀ (s : State) (rest : List Event), s.loaded = true →
    drawFlagPort s = s.drawFlag ∧ clearFlagPort s = s.clearFlag ∧ currentOpcodePort s = s.curOp ∧ faultPort s = s.fault ∧
    (∀ k, s.schedule = .setKey k :: rest → step s = .next { s with key := k, schedule := rest }) ∧
    (s.schedule = .ackDraw :: rest → step s = .next { s with drawFlag := false, schedule := rest }) ∧
    (s.schedule = .ackClear :: rest → step s = .next { s with clearFlag := false, schedule := rest }) ∧
    (s.schedule = .stopTimer :: rest → step s = .next { s with timerRun := false, schedule := rest })

/-! ## Control flow -/

/-- R150, R286: SYS and Fx18 do nothing: their cycle leaves only RNG, CUR_OP and PC changed. -/
def Obligations.SysAndSoundDoNothing : Prop :=
  (∀ w : Word, w &&& 0xF000 = 0x0000 → w &&& 0x00FF ≠ 0x00E0 → w &&& 0x00FF ≠ 0x00EE → decode w = .ok (.sys (nnnField w))) ∧
  DecodesAs 0xF0FF 0xF018 (fun w => .ldStVx (xField w)) ∧
  (∀ nnn s, exec (.sys nnn) s = .next s) ∧ (∀ x s, exec (.ldStVx x) s = .next s) ∧
  (∀ s : State, s.schedule = [] → s.Running → FetchAccepts s.pc →
    (∃ nnn, decode (wordOfBytes (s.byteAt s.pc.toNat) (s.byteAt (s.pc.toNat + 1))) = .ok (.sys nnn)) ∨
    (∃ x, decode (wordOfBytes (s.byteAt s.pc.toNat) (s.byteAt (s.pc.toNat + 1))) = .ok (.ldStVx x)) →
    step s = .next s.inCycle)

/-- R151: RET pops the most recent return address, clearing no slot; with an empty stack it raises StackUnderflow and does
nothing else. -/
def Obligations.RetPopsTheReturnAddress : Prop :=
  DecodesAs 0xF0FF 0x00EE (fun _ => .ret) ∧
  ∀ s : State,
    (∀ h : 0 < s.sp.val, ∃ t, exec .ret s = .next t ∧ t.sp.val = s.sp.val - 1 ∧
      t.pc = s.stack[s.sp.val - 1]'(by have := s.sp.isLt; omega) ∧ t = { s with sp := t.sp, pc := t.pc } ∧
      SameBytes s t) ∧
    (s.sp = 0 → exec .ret s = .next { s with fault := some (s.recordOf .stackUnderflow 0x0000) })

/-- R152, R158: JP nnn goes to nnn; JP V0, nnn to nnn + V0, with no wrap. -/
def Obligations.JumpsSetThePc : Prop :=
  DecodesAs 0xF000 0x1000 (fun w => .jp (nnnField w)) ∧ DecodesAs 0xF000 0xB000 (fun w => .jpV0 (nnnField w)) ∧
  ∀ (nnn : Addr) (s : State),
    (∃ t, exec (.jp nnn) s = .next t ∧ t.pc.toNat = nnn.toNat ∧ OnlyPc s t) ∧
    (∃ t, exec (.jpV0 nnn) s = .next t ∧ t.pc.toNat = nnn.toNat + (s.reg 0).toNat ∧ OnlyPc s t)

/-- R153: CALL pushes the address after itself and jumps; with 24 return addresses on the stack it raises StackOverflow and
does nothing else. -/
def Obligations.CallPushesTheReturnAddress : Prop :=
  DecodesAs 0xF000 0x2000 (fun w => .call (nnnField w)) ∧
  ∀ (nnn : Addr) (s : State),
    (∀ h : s.sp.val < 24, ∃ t, exec (.call nnn) s = .next t ∧ t.stack[s.sp.val] = s.pc ∧
      (∀ j (hj : j < 24), j ≠ s.sp.val → t.stack[j] = s.stack[j]) ∧ t.sp.val = s.sp.val + 1 ∧
      t.pc.toNat = nnn.toNat ∧ t = { s with stack := t.stack, sp := t.sp, pc := t.pc } ∧ SameBytes s t) ∧
    (s.sp = 24 → exec (.call nnn) s = .next { s with fault := some (s.recordOf .stackOverflow 0x0000) })

/-- R161: CALL, then anything that leaves the stack and the stack pointer as the CALL left them, then RET, comes back to the
address after the CALL with the stack pointer it started with. -/
def Obligations.RetUndoesCall : Prop :=
  ∀ (nnn : Addr) (s t u : State), s.sp.val < 24 → exec (.call nnn) s = .next t → u.stack = t.stack → u.sp = t.sp →
    ∃ r, exec .ret u = .next r ∧ r.pc = s.pc ∧ r.sp = s.sp

/-- R154, R155: the skips that compare with a byte. -/
def Obligations.ByteSkipsCompareTheRegister : Prop :=
  DecodesAs 0xF000 0x3000 (fun w => .seImm (xField w) (kkField w)) ∧
  DecodesAs 0xF000 0x4000 (fun w => .sneImm (xField w) (kkField w)) ∧
  ∀ (x : RegIx) (kk : Byte) (s : State),
    (∃ t, exec (.seImm x kk) s = .next t ∧ t.pc = (if s.reg x = kk then s.pc + 2 else s.pc) ∧ OnlyPc s t) ∧
    (∃ t, exec (.sneImm x kk) s = .next t ∧ t.pc = (if s.reg x ≠ kk then s.pc + 2 else s.pc) ∧ OnlyPc s t)

/-- R156, R157: the skips that compare two registers, for every n, which is ignored. -/
def Obligations.RegisterSkipsCompareTheRegisters : Prop :=
  DecodesAs 0xF000 0x5000 (fun w => .seReg (xField w) (yField w) (nField w)) ∧
  DecodesAs 0xF000 0x9000 (fun w => .sneReg (xField w) (yField w) (nField w)) ∧
  ∀ (x y : RegIx) (n : Nibble) (s : State),
    (∃ t, exec (.seReg x y n) s = .next t ∧ t.pc = (if s.reg x = s.reg y then s.pc + 2 else s.pc) ∧ OnlyPc s t) ∧
    (∃ t, exec (.sneReg x y n) s = .next t ∧ t.pc = (if s.reg x ≠ s.reg y then s.pc + 2 else s.pc) ∧ OnlyPc s t)

/-! ## ALU and registers -/

/-- R180, R181, R182: load immediate, add immediate (modulo 256, no flag) and copy. -/
def Obligations.LoadsAndAddImmediateWriteOneRegister : Prop :=
  DecodesAs 0xF000 0x6000 (fun w => .ldImm (xField w) (kkField w)) ∧
  DecodesAs 0xF000 0x7000 (fun w => .addImm (xField w) (kkField w)) ∧
  DecodesAs 0xF00F 0x8000 (fun w => .ldReg (xField w) (yField w)) ∧
  ∀ (x y : RegIx) (kk : Byte) (s : State),
    (∃ t, exec (.ldImm x kk) s = .next t ∧ t.reg x = kk ∧ SameRegsBut x s t ∧ OnlyRegs s t) ∧
    (∃ t, exec (.addImm x kk) s = .next t ∧ (t.reg x).toNat = ((s.reg x).toNat + kk.toNat) % 256 ∧
      SameRegsBut x s t ∧ OnlyRegs s t) ∧
    (∃ t, exec (.ldReg x y) s = .next t ∧ t.reg x = s.reg y ∧ SameRegsBut x s t ∧ OnlyRegs s t)

/-- R183, R184, R185: the logic operations, bit by bit; VF is written only as the destination. -/
def Obligations.LogicOperationsWriteOneRegister : Prop :=
  DecodesAs 0xF00F 0x8001 (fun w => .orReg (xField w) (yField w)) ∧
  DecodesAs 0xF00F 0x8002 (fun w => .andReg (xField w) (yField w)) ∧
  DecodesAs 0xF00F 0x8003 (fun w => .xorReg (xField w) (yField w)) ∧
  ∀ (x y : RegIx) (s : State),
    (∃ t, exec (.orReg x y) s = .next t ∧
      (∀ b, b < 8 → (t.reg x).getLsbD b = ((s.reg x).getLsbD b || (s.reg y).getLsbD b)) ∧
      SameRegsBut x s t ∧ OnlyRegs s t) ∧
    (∃ t, exec (.andReg x y) s = .next t ∧
      (∀ b, b < 8 → (t.reg x).getLsbD b = ((s.reg x).getLsbD b && (s.reg y).getLsbD b)) ∧
      SameRegsBut x s t ∧ OnlyRegs s t) ∧
    (∃ t, exec (.xorReg x y) s = .next t ∧
      (∀ b, b < 8 → (t.reg x).getLsbD b = ((s.reg x).getLsbD b ^^ (s.reg y).getLsbD b)) ∧
      SameRegsBut x s t ∧ OnlyRegs s t)

/-- R186, R193: ADD Vx, Vy; VF is the carry, and when x = 15 the carry is what VF holds. -/
def Obligations.AddRegisterSetsCarry : Prop :=
  DecodesAs 0xF00F 0x8004 (fun w => .addReg (xField w) (yField w)) ∧
  ∀ (x y : RegIx) (s : State), ∃ t, exec (.addReg x y) s = .next t ∧
    (x ≠ 15 → (t.reg x).toNat = ((s.reg x).toNat + (s.reg y).toNat) % 256) ∧
    t.reg 15 = (if 255 < (s.reg x).toNat + (s.reg y).toNat then 1 else 0) ∧ SameRegsButFlag x s t ∧ OnlyRegs s t

/-- R187, R189, R193: the subtractions; VF is 1 exactly when there is no borrow. -/
def Obligations.SubtractionsSetNotBorrow : Prop :=
  DecodesAs 0xF00F 0x8005 (fun w => .subReg (xField w) (yField w)) ∧
  DecodesAs 0xF00F 0x8007 (fun w => .subnReg (xField w) (yField w)) ∧
  ∀ (x y : RegIx) (s : State),
    (∃ t, exec (.subReg x y) s = .next t ∧
      (x ≠ 15 → ((t.reg x).toNat : Int) = (((s.reg x).toNat : Int) - (s.reg y).toNat) % 256) ∧
      t.reg 15 = (if (s.reg y).toNat ≤ (s.reg x).toNat then 1 else 0) ∧ SameRegsButFlag x s t ∧ OnlyRegs s t) ∧
    (∃ t, exec (.subnReg x y) s = .next t ∧
      (x ≠ 15 → ((t.reg x).toNat : Int) = (((s.reg y).toNat : Int) - (s.reg x).toNat) % 256) ∧
      t.reg 15 = (if (s.reg x).toNat ≤ (s.reg y).toNat then 1 else 0) ∧ SameRegsButFlag x s t ∧ OnlyRegs s t)

/-- R188, R190, R193: the shifts read V[y] and write V[x]; VF is the bit shifted out of V[y]. -/
def Obligations.ShiftsReadVyAndWriteVx : Prop :=
  DecodesAs 0xF00F 0x8006 (fun w => .shrReg (xField w) (yField w)) ∧
  DecodesAs 0xF00F 0x800E (fun w => .shlReg (xField w) (yField w)) ∧
  ∀ (x y : RegIx) (s : State),
    (∃ t, exec (.shrReg x y) s = .next t ∧ (x ≠ 15 → (t.reg x).toNat = (s.reg y).toNat / 2) ∧
      (t.reg 15).toNat = (s.reg y).toNat % 2 ∧ SameRegsButFlag x s t ∧ OnlyRegs s t) ∧
    (∃ t, exec (.shlReg x y) s = .next t ∧ (x ≠ 15 → (t.reg x).toNat = (s.reg y).toNat * 2 % 256) ∧
      (t.reg 15).toNat = (s.reg y).toNat / 128 ∧ SameRegsButFlag x s t ∧ OnlyRegs s t)

/-- R191: RND, seen from the cycle that runs it: V[x] is the generator's state after this cycle's one advance, and kk. -/
def Obligations.RndMasksTheAdvancedGenerator : Prop :=
  DecodesAs 0xF000 0xC000 (fun w => .rnd (xField w) (kkField w)) ∧
  (∀ (x : RegIx) (kk : Byte) (s : State), ∃ t, exec (.rnd x kk) s = .next t ∧
    (∀ b, b < 8 → (t.reg x).getLsbD b = (s.rng.getLsbD b && kk.getLsbD b)) ∧ SameRegsBut x s t ∧ OnlyRegs s t) ∧
  (∀ (x : RegIx) (kk : Byte) (s : State), s.schedule = [] → s.Running → FetchAccepts s.pc →
    decode (wordOfBytes (s.byteAt s.pc.toNat) (s.byteAt (s.pc.toNat + 1))) = .ok (.rnd x kk) →
    ∃ t, step s = .next t ∧ t.reg x = rngStep s.rng &&& kk ∧ t.rng = rngStep s.rng ∧ t.pc = s.pc + 2)

/-- R192: RngStep as the rule's arithmetic, and the properties the rule derives from it. -/
def Obligations.RngStepIsTheXorshift : Prop :=
  (∀ s : Byte, (rngStep s).toNat =
    let a := s.toNat ^^^ (s.toNat * 32 % 256)
    let b := a ^^^ (a / 2)
    b ^^^ (b * 32 % 256)) ∧
  Function.Bijective rngStep ∧ (∀ s : Byte, rngStep s = s ↔ s = 0x00 ∨ s = 0x21) ∧
  rngStep 0x42 = 0x63 ∧ rngStep 0x63 = 0x42 ∧ (∀ s : Byte, rngStep^[8] s = s) ∧
  (Finset.univ.filter fun s : Byte => rngStep^[4] s = s ∧ rngStep^[2] s ≠ s).card = 12 ∧
  (Finset.univ.filter fun s : Byte => rngStep^[4] s ≠ s).card = 240 ∧
  (List.range 6).map (fun k => rngStep^[k + 1] 0x01) = [0x11, 0x09, 0x9D, 0x43, 0x72, 0x4B]

/-! ## Index register and memory -/

/-- R220, R221, R222: the three instructions that write I. -/
def Obligations.IndexInstructionsWriteTheIndex : Prop :=
  DecodesAs 0xF000 0xA000 (fun w => .ldI (nnnField w)) ∧ DecodesAs 0xF0FF 0xF01E (fun w => .addI (xField w)) ∧
  DecodesAs 0xF0FF 0xF029 (fun w => .ldF (xField w)) ∧
  ∀ (nnn : Addr) (x : RegIx) (s : State),
    (∃ t, exec (.ldI nnn) s = .next t ∧ t.i.toNat = nnn.toNat ∧ OnlyIndex s t) ∧
    (∃ t, exec (.addI x) s = .next t ∧ t.i.toNat = (s.i.toNat + (s.reg x).toNat) % 65536 ∧ OnlyIndex s t) ∧
    (∃ t, exec (.ldF x) s = .next t ∧ t.i.toNat = 5 * ((s.reg x).toNat % 16) ∧ OnlyIndex s t)

/-- R223: BCD, with its frame; past the end of memory it raises BoundsViolation and writes nothing. What a stored byte reads
as afterwards is said of canonical memories, which every run has (StepKeepsTheInvariant). -/
def Obligations.BcdWritesThreeDigits : Prop :=
  DecodesAs 0xF0FF 0xF033 (fun w => .ldB (xField w)) ∧
  ∀ (x : RegIx) (s : State),
    (s.i.toNat + 2 < 0x1000 → ∃ t, exec (.ldB x) s = .next t ∧
      (Memory.wf s.params.font s.mem = true →
        (t.byteAt s.i.toNat).toNat = (s.reg x).toNat / 100 ∧
        (t.byteAt (s.i.toNat + 1)).toNat = (s.reg x).toNat / 10 % 10 ∧
        (t.byteAt (s.i.toNat + 2)).toNat = (s.reg x).toNat % 10) ∧
      SameBytesOutside s.i.toNat 3 s t ∧ t = { s with mem := t.mem }) ∧
    (0x1000 ≤ s.i.toNat + 2 → exec (.ldB x) s = .next { s with fault := some (s.recordOf .boundsViolation s.badAddr) })

/-- R224: the register dump stores V[0] to V[x], I unchanged, with its frame and its fault. What a stored byte reads as
afterwards is said of canonical memories, which every run has (StepKeepsTheInvariant). -/
def Obligations.DumpStoresRegistersUpToX : Prop :=
  DecodesAs 0xF0FF 0xF055 (fun w => .dump (xField w)) ∧
  ∀ (x : RegIx) (s : State),
    (s.i.toNat + x.val < 0x1000 → ∃ t, exec (.dump x) s = .next t ∧
      (Memory.wf s.params.font s.mem = true → ∀ k : RegIx, k ≤ x → t.byteAt (s.i.toNat + k.val) = s.reg k) ∧
      SameBytesOutside s.i.toNat (x.val + 1) s t ∧ t = { s with mem := t.mem }) ∧
    (0x1000 ≤ s.i.toNat + x.val →
      exec (.dump x) s = .next { s with fault := some (s.recordOf .boundsViolation s.badAddr) })

/-- R225: the register load fills V[0] to V[x], I unchanged, with its frame and its fault. -/
def Obligations.FillLoadsRegistersUpToX : Prop :=
  DecodesAs 0xF0FF 0xF065 (fun w => .fill (xField w)) ∧
  ∀ (x : RegIx) (s : State),
    (s.i.toNat + x.val < 0x1000 → ∃ t, exec (.fill x) s = .next t ∧
      (∀ k : RegIx, t.reg k = if k ≤ x then s.byteAt (s.i.toNat + k.val) else s.reg k) ∧ OnlyRegs s t) ∧
    (0x1000 ≤ s.i.toNat + x.val →
      exec (.fill x) s = .next { s with fault := some (s.recordOf .boundsViolation s.badAddr) })

/-- A register load from where a dump stored, with the registers changed in between, brings V[0] to V[x] back (R224,
R225, R72). -/
def Obligations.FillUndoesDump : Prop :=
  ∀ (x : RegIx) (s t : State) (w : Vector Byte 16), Memory.wf s.params.font s.mem = true →
    s.i.toNat + x.val < 0x1000 → exec (.dump x) s = .next t →
    ∃ u, exec (.fill x) { t with v := w } = .next u ∧ ∀ k : RegIx, k ≤ x → u.reg k = s.reg k

/-- Equal memories are equal data: two canonical memories that read the same at every address are the same list. -/
def Obligations.CanonicalMemoriesAreEqualData : Prop :=
  ∀ (font : Font) (m m' : Memory), Memory.wf font m = true → Memory.wf font m' = true →
    (∀ a, Memory.read font m a = Memory.read font m' a) → m = m'

/-! ## Display -/

/-- R250, R254: CLS blanks every row and raises CLEAR_FLAG; VF and DRAW_FLAG are not written. -/
def Obligations.ClsBlanksTheScreen : Prop :=
  DecodesAs 0xF0FF 0x00E0 (fun _ => .cls) ∧
  ∀ s : State, ∃ t, exec .cls s = .next t ∧ (∀ r : Fin 32, t.fb[r.val] = 0) ∧ t.clearFlag = true ∧
    t = { s with fb := t.fb, clearFlag := t.clearFlag } ∧ SameBytes s t

/-- R251, R256, and R255 and R257 but for their remarks on drawing twice and on distinct rows: DRW pixel by pixel, for every
position, height and register (VF among them): each pixel is XORed with the sprite's pixel that lands on it, both ways round
the edges; VF is 1 exactly when a lit pixel met one; past the end of memory BoundsViolation, and nothing drawn. -/
def Obligations.DrwXorsTheSpritePixels : Prop :=
  DecodesAs 0xF000 0xD000 (fun w => .drw (xField w) (yField w) (nField w)) ∧
  ∀ (x y : RegIx) (n : Nibble) (s : State),
    (n = 0 ∨ s.i.toNat + n.toNat - 1 < 0x1000 → ∃ t, exec (.drw x y n) s = .next t ∧
      (∀ c, c < 64 → ∀ r : Fin 32, t.pixel c r =
        (s.pixel c r ^^ s.spritePixel (s.reg x).toNat (s.reg y).toNat n.toNat c r)) ∧
      ((t.reg 15 = 1 ∧ ∃ c, c < 64 ∧ ∃ r : Fin 32, s.pixel c r = true ∧
          s.spritePixel (s.reg x).toNat (s.reg y).toNat n.toNat c r = true) ∨
       (t.reg 15 = 0 ∧ ¬ ∃ c, c < 64 ∧ ∃ r : Fin 32, s.pixel c r = true ∧
          s.spritePixel (s.reg x).toNat (s.reg y).toNat n.toNat c r = true)) ∧
      t.drawFlag = true ∧ SameRegsBut 15 s t ∧ t = { s with v := t.v, fb := t.fb, drawFlag := t.drawFlag } ∧
      SameBytes s t) ∧
    (n ≠ 0 → 0x1000 ≤ s.i.toNat + n.toNat - 1 →
      exec (.drw x y n) s = .next { s with fault := some (s.recordOf .boundsViolation s.badAddr) })

/-- The XOR identity of R258: drawing the same sprite twice at the same place restores every row; the second draw collides
exactly when some sprite bit lands on a pixel that was unlit before the first, so on a blank screen exactly when some byte
is nonzero (log entry 8). -/
def Obligations.DrawingTwiceRestoresTheScreen : Prop :=
  ∀ (s : State) (xpos ypos : Nat) (sprite : List Byte), xpos < 64 → sprite.length ≤ 15 →
    let d1 := s.draw xpos ypos sprite
    let d2 := d1.1.draw xpos ypos sprite
    d2.1.fb = s.fb ∧
    (d2.2 = true ↔ ∃ (k : Nat) (h : k < sprite.length),
      spriteWord sprite[k] xpos &&& ~~~ (s.fb[(ypos + k) % 32]'(Nat.mod_lt _ (by decide))) ≠ 0) ∧
    ((∀ r : Fin 32, s.fb[r.val] = 0) → (d2.2 = true ↔ ∃ b ∈ sprite, b ≠ 0))

/-- R258's second sentence as it is written, for every screen. It contradicts R251, which the model follows (90_conflicts.md
C7, log entry 8): a sprite drawn over its own image erases it, and the second draw then collides with nothing. -/
def Obligations.SecondDrawAlwaysReportsCollision : Prop :=
  ∀ (s : State) (xpos ypos : Nat) (sprite : List Byte), xpos < 64 → sprite.length ≤ 15 →
    (((s.draw xpos ypos sprite).1.draw xpos ypos sprite).2 = true ↔ ∃ b ∈ sprite, b ≠ 0)

/-- R48: the row port answers FB[r] for r from 0 to 31 of a loaded block, column c at bit 63 - c (R32), and no
other request. -/
def Obligations.RowPortAnswersTheRow : Prop :=
  ∀ (s : State) (r : Nat), s.loaded = true →
    (∀ h : r < 32, ∃ w, rowPort r s = some w ∧ ∀ c, c < 64 → w.getLsbD (63 - c) = s.pixel c ⟨r, h⟩) ∧
    (32 ≤ r → rowPort r s = none)

/-! ## Timer and keys -/

/-- R280, R281, R282: Fx07 in its two modes, and Fx15. -/
def Obligations.DelayInstructionsUseTheTimer : Prop :=
  DecodesAs 0xF0FF 0xF007 (fun w => .ldVxDt (xField w)) ∧ DecodesAs 0xF0FF 0xF015 (fun w => .ldDtVx (xField w)) ∧
  ∀ (x : RegIx) (s : State),
    (s.params.fx07Mode = .skipIfEqual → ∃ t, exec (.ldVxDt x) s = .next t ∧
      t.pc = (if s.reg x = s.dt then s.pc + 2 else s.pc) ∧ OnlyPc s t) ∧
    (s.params.fx07Mode = .load → ∃ t, exec (.ldVxDt x) s = .next t ∧ t.reg x = s.dt ∧ SameRegsBut x s t ∧
      OnlyRegs s t) ∧
    (∃ t, exec (.ldDtVx x) s = .next t ∧ t.dt = s.reg x ∧ t = { s with dt := t.dt } ∧ SameBytes s t)

/-- R283, R284, R287: SKP skips exactly when KEY is some(k) and the whole V[x] is k; SKNP exactly when not. A value above
15 is never pressed, and KEY is not changed. -/
def Obligations.KeySkipsCompareTheWholeRegister : Prop :=
  DecodesAs 0xF0FF 0xE09E (fun w => .skp (xField w)) ∧ DecodesAs 0xF0FF 0xE0A1 (fun w => .sknp (xField w)) ∧
  ∀ (x : RegIx) (s : State), ∃ t u, exec (.skp x) s = .next t ∧ exec (.sknp x) s = .next u ∧ OnlyPc s t ∧ OnlyPc s u ∧
    ((∃ k, s.key = some k ∧ (s.reg x).toNat = k.toNat) → t.pc = s.pc + 2 ∧ u.pc = s.pc) ∧
    ((¬ ∃ k, s.key = some k ∧ (s.reg x).toNat = k.toNat) → t.pc = s.pc ∧ u.pc = s.pc + 2) ∧
    (15 < (s.reg x).toNat → t.pc = s.pc ∧ u.pc = s.pc + 2)

/-- R285's pseudocode: Fx0A sets WAIT and nothing else, whether or not a key is pending. The last clause is the sentence of
R285 that the spec marks as its own inference from R120 ("the wait starts in the next cycle even if KEY is already some(k)
in this cycle"), with the resolving cycle of R124: the next cycle writes the key, and PC already points past the Fx0A. -/
def Obligations.KeyWaitStartsInTheNextCycle : Prop :=
  DecodesAs 0xF0FF 0xF00A (fun w => .ldVxK (xField w)) ∧
  (∀ (x : RegIx) (s : State), ∃ t, exec (.ldVxK x) s = .next t ∧ t.wait = some x ∧ t = { s with wait := t.wait } ∧
    SameBytes s t) ∧
  (∀ (x : RegIx) (s : State) (k : Nibble), s.schedule = [] → s.Running → FetchAccepts s.pc →
    decode (wordOfBytes (s.byteAt s.pc.toNat) (s.byteAt (s.pc.toNat + 1))) = .ok (.ldVxK x) → s.key = some k →
    ∃ t u, step s = .next t ∧ t.Waiting x ∧ t.reg x = s.reg x ∧ t.pc = s.pc + 2 ∧
      step t = .next u ∧ u.Running ∧ (u.reg x).toNat = k.toNat ∧ u.pc = s.pc + 2 ∧ u.rng = t.rng)

/-! ## Who writes what: rules about the whole instruction set -/

/-- R22, R25, R60: only Annn, Fx1E and Fx29 write I; only Fx33 and Fx55 change a byte of memory, from I on and below
0x1000; only CALL writes a slot of the stack, and no instruction but CALL and RET changes SP. -/
def Obligations.IndexMemoryAndStackHaveFewWriters : Prop :=
  ∀ (i : Instr) (s t : State), exec i s = .next t →
    (t.i ≠ s.i → (∃ nnn, i = .ldI nnn) ∨ (∃ x, i = .addI x) ∨ (∃ x, i = .ldF x)) ∧
    (∀ a, t.byteAt a ≠ s.byteAt a →
      ((∃ x, i = .ldB x) ∨ (∃ x, i = .dump x)) ∧ s.i.toNat ≤ a ∧ a < s.i.toNat + 16 ∧ a < 0x1000) ∧
    (t.stack ≠ s.stack → ∃ nnn, i = .call nnn) ∧ (t.sp ≠ s.sp → i = .ret ∨ ∃ nnn, i = .call nnn)

/-- R29, R30, R31: only CLS and DRW write the framebuffer; DRW raises DRAW_FLAG and CLS raises CLEAR_FLAG, and no instruction
clears either. -/
def Obligations.DisplayIsWrittenByClsAndDrwAlone : Prop :=
  ∀ (i : Instr) (s t : State), exec i s = .next t →
    (t.fb ≠ s.fb → i = .cls ∨ ∃ x y n, i = .drw x y n) ∧
    (t.drawFlag ≠ s.drawFlag → t.drawFlag = true ∧ ∃ x y n, i = .drw x y n) ∧
    (t.clearFlag ≠ s.clearFlag → t.clearFlag = true ∧ i = .cls)

/-- R21: VF is written as a flag by 8xy4 to 8xy7, 8xyE and Dxyn alone; any other instruction that changes VF has it as its
destination V[x], or loads it as the last register of Fx65. -/
def Obligations.FlagWritersAreThoseOfTheRule : Prop :=
  ∀ (i : Instr) (s t : State), exec i s = .next t → t.reg 15 ≠ s.reg 15 →
    (∃ x y, i = .addReg x y ∨ i = .subReg x y ∨ i = .shrReg x y ∨ i = .subnReg x y ∨ i = .shlReg x y) ∨
    (∃ x y n, i = .drw x y n) ∨ (∃ kk, i = .ldImm 15 kk ∨ i = .addImm 15 kk ∨ i = .rnd 15 kk) ∨
    (∃ y, i = .ldReg 15 y ∨ i = .orReg 15 y ∨ i = .andReg 15 y ∨ i = .xorReg 15 y) ∨
    i = .ldVxDt 15 ∨ i = .fill 15

/-- R33, R35, R37, R40: no instruction writes KEY, TIMER_RUN, RNG or CUR_OP, nor the parameters or the schedule; WAIT is
written by Fx0A alone and DT by Fx15 alone. -/
def Obligations.NoInstructionWritesTheHostsCells : Prop :=
  ∀ (i : Instr) (s t : State), exec i s = .next t →
    t.key = s.key ∧ t.timerRun = s.timerRun ∧ t.rng = s.rng ∧ t.curOp = s.curOp ∧ t.params = s.params ∧
    t.loaded = s.loaded ∧ t.schedule = s.schedule ∧
    (t.wait ≠ s.wait → ∃ x, i = .ldVxK x) ∧ (t.dt ≠ s.dt → ∃ x, i = .ldDtVx x)
end

