-- ==== Sys2Proof/Laws/Memory.lean ====
section
/-! SUPPORT. Sys2Proof/Laws/Memory.lean: the laws of memory as a list of cells: a read after a write, and that every operation
keeps the canonical form. -/

namespace Sys2Proof.Machine

variable (font : Font)

/-! ### The canonical form, one cell at a time -/

theorem Memory.wfFrom_cell {lo k : Nat} {b : Byte} {m : Memory} :
    Memory.wfFrom font lo ((k, b) :: m) = true ↔
      lo ≤ k ∧ k < 0x1000 ∧ b ≠ Memory.unlisted font k ∧ Memory.wfFrom font (k + 1) m = true := by
  simp [Memory.wfFrom, and_assoc]

theorem Memory.wfFrom_mono {lo lo' : Nat} {m : Memory} (h : Memory.wfFrom font lo m = true) (hl : lo' ≤ lo) :
    Memory.wfFrom font lo' m = true := by
  cases m with
  | nil => rfl
  | cons c m =>
    obtain ⟨k, b⟩ := c
    rw [Memory.wfFrom_cell] at h ⊢
    exact ⟨hl.trans h.1, h.2⟩

/-- Below its first address a canonical memory lists nothing. -/
theorem Memory.find_below {lo a : Nat} {m : Memory} (h : Memory.wfFrom font lo m = true) (ha : a < lo) :
    m.find a = none := by
  induction m generalizing lo with
  | nil => rfl
  | cons c m ih =>
    obtain ⟨k, b⟩ := c
    rw [Memory.wfFrom_cell] at h
    rw [Memory.find, if_neg (by omega)]
    exact ih h.2.2.2 (by omega)

theorem Memory.read_below {lo a : Nat} {m : Memory} (h : Memory.wfFrom font lo m = true) (ha : a < lo) :
    Memory.read font m a = Memory.unlisted font a := by
  rw [Memory.read, Memory.find_below font h ha]; rfl

theorem Memory.wfFrom_cons {lo a : Nat} {b : Byte} {m : Memory} (hl : lo ≤ a) (ha : a < 0x1000)
    (h : Memory.wfFrom font (a + 1) m = true) : Memory.wfFrom font lo (Memory.cons font a b m) = true := by
  unfold Memory.cons
  split
  · exact Memory.wfFrom_mono font h (by omega)
  · rename_i hb
    exact (Memory.wfFrom_cell font).2 ⟨hl, ha, hb, h⟩

/-! ### Reading -/

@[simp] theorem Memory.read_nil (a : Nat) : Memory.read font [] a = Memory.unlisted font a := rfl

theorem Memory.read_cell (k a : Nat) (b : Byte) (m : Memory) :
    Memory.read font ((k, b) :: m) a = if k = a then b else Memory.read font m a := by
  unfold Memory.read
  rw [Memory.find]
  split <;> rfl

theorem Memory.read_cons_ne {a c : Nat} (b : Byte) (m : Memory) (h : c ≠ a) :
    Memory.read font (Memory.cons font a b m) c = Memory.read font m c := by
  unfold Memory.cons
  split
  · rfl
  · rw [Memory.read_cell, if_neg (Ne.symm h)]

theorem Memory.read_cons_same {a : Nat} (b : Byte) {m : Memory} (h : Memory.read font m a = Memory.unlisted font a) :
    Memory.read font (Memory.cons font a b m) a = b := by
  unfold Memory.cons
  split
  · rename_i hb; rw [h, hb]
  · rw [Memory.read_cell, if_pos rfl]

/-! ### Writing -/

/-- A write leaves every other address alone, in any memory. -/
theorem Memory.read_write_ne (m : Memory) {a c : Nat} (b : Byte) (h : c ≠ a) :
    Memory.read font (Memory.write font m a b) c = Memory.read font m c := by
  induction m with
  | nil => exact Memory.read_cons_ne font b [] h
  | cons cell m ih =>
    obtain ⟨k, d⟩ := cell
    rw [Memory.write]
    split
    · exact Memory.read_cons_ne font b _ h
    · split
      · rename_i hk
        rw [Memory.read_cons_ne font b m h, Memory.read_cell, if_neg (by omega)]
      · rw [Memory.read_cell, Memory.read_cell, ih]

/-- A read after a write to the same address gives the byte written, in a canonical memory. -/
theorem Memory.read_write_same {lo : Nat} {m : Memory} (h : Memory.wfFrom font lo m = true) (a : Nat) (b : Byte) :
    Memory.read font (Memory.write font m a b) a = b := by
  induction m generalizing lo with
  | nil => exact Memory.read_cons_same font b rfl
  | cons cell m ih =>
    obtain ⟨k, d⟩ := cell
    have hm := (Memory.wfFrom_cell font).1 h
    rw [Memory.write]
    split
    · rename_i hk
      refine Memory.read_cons_same font b (Memory.read_below font (lo := k) ?_ hk)
      exact (Memory.wfFrom_cell font).2 ⟨le_rfl, hm.2⟩
    · split
      · rename_i hk
        exact Memory.read_cons_same font b (Memory.read_below font hm.2.2.2 (by omega))
      · rename_i h1 h2
        rw [Memory.read_cell, if_neg (by omega)]
        exact ih hm.2.2.2

/-- A write below 0x1000 keeps the canonical form. -/
theorem Memory.wfFrom_write {lo : Nat} {m : Memory} (h : Memory.wfFrom font lo m = true) {a : Nat} (hl : lo ≤ a)
    (ha : a < 0x1000) (b : Byte) : Memory.wfFrom font lo (Memory.write font m a b) = true := by
  induction m generalizing lo with
  | nil => exact Memory.wfFrom_cons font hl ha rfl
  | cons cell m ih =>
    obtain ⟨k, d⟩ := cell
    have hm := (Memory.wfFrom_cell font).1 h
    rw [Memory.write]
    split
    · exact Memory.wfFrom_cons font hl ha ((Memory.wfFrom_cell font).2 ⟨by omega, hm.2⟩)
    · split
      · rename_i hk
        exact Memory.wfFrom_cons font hl ha (Memory.wfFrom_mono font hm.2.2.2 (by omega))
      · exact (Memory.wfFrom_cell font).2 ⟨hm.1, hm.2.1, hm.2.2.1, ih hm.2.2.2 (by omega)⟩

theorem Memory.wf_write {m : Memory} (h : Memory.wf font m = true) {a : Nat} (ha : a < 0x1000) (b : Byte) :
    Memory.wf font (Memory.write font m a b) = true := Memory.wfFrom_write font h (Nat.zero_le a) ha b

/-! ### The memory a load leaves -/

theorem Memory.wfFrom_ofRom (a : Nat) (rom : List Byte) (h : a + rom.length ≤ 0x1000) :
    Memory.wfFrom font a (Memory.ofRom font a rom) = true := by
  induction rom generalizing a with
  | nil => rfl
  | cons b rom ih =>
    rw [List.length_cons] at h
    exact Memory.wfFrom_cons font le_rfl (by omega) (ih (a + 1) (by omega))

theorem Memory.wf_ofRom (a : Nat) (rom : List Byte) (h : a + rom.length ≤ 0x1000) :
    Memory.wf font (Memory.ofRom font a rom) = true := Memory.wfFrom_mono font (Memory.wfFrom_ofRom font a rom h) (Nat.zero_le a)

/-- ROM byte j is at address a + j; every other address reads as unlisted. -/
theorem Memory.read_ofRom (a c : Nat) (rom : List Byte) (h : a + rom.length ≤ 0x1000) :
    Memory.read font (Memory.ofRom font a rom) c =
      if c < a then Memory.unlisted font c else rom.getD (c - a) (Memory.unlisted font c) := by
  induction rom generalizing a with
  | nil => simp [Memory.ofRom]
  | cons b rom ih =>
    rw [List.length_cons] at h
    rw [Memory.ofRom]
    by_cases hc : c = a
    · subst hc
      rw [Memory.read_cons_same font b (Memory.read_below font (Memory.wfFrom_ofRom font (c + 1) rom (by omega)) (by omega))]
      simp
    · rw [Memory.read_cons_ne font b _ hc, ih (a + 1) (by omega)]
      by_cases hl : c < a
      · rw [if_pos hl, if_pos (by omega)]
      · rw [if_neg hl, if_neg (by omega), show c - a = (c - (a + 1)) + 1 by omega, List.getD_cons_succ]

/-- At 0x50 and above an address with no cell reads as zero (R68). -/
theorem Memory.unlisted_high {a : Nat} (h : 80 ≤ a) : Memory.unlisted font a = 0 := by
  rw [Memory.unlisted, dif_neg (by omega)]

end Sys2Proof.Machine
end

