-- ==== Sys2Proof/Laws/State.lean ====
section
/-! SUPPORT. Sys2Proof/Laws/State.lean: one lemma per field per named update of State, true by rfl, so that no later proof
unfolds a record update. -/

namespace Sys2Proof.Machine

variable (s : State)

/-! `State.setMem` -/

@[simp] theorem State.setMem_params (m : Memory) : (s.setMem m).params = s.params := rfl
@[simp] theorem State.setMem_loaded (m : Memory) : (s.setMem m).loaded = s.loaded := rfl
@[simp] theorem State.setMem_mem (m : Memory) : (s.setMem m).mem = m := rfl
@[simp] theorem State.setMem_v (m : Memory) : (s.setMem m).v = s.v := rfl
@[simp] theorem State.setMem_i (m : Memory) : (s.setMem m).i = s.i := rfl
@[simp] theorem State.setMem_pc (m : Memory) : (s.setMem m).pc = s.pc := rfl
@[simp] theorem State.setMem_stack (m : Memory) : (s.setMem m).stack = s.stack := rfl
@[simp] theorem State.setMem_sp (m : Memory) : (s.setMem m).sp = s.sp := rfl
@[simp] theorem State.setMem_curOp (m : Memory) : (s.setMem m).curOp = s.curOp := rfl
@[simp] theorem State.setMem_wait (m : Memory) : (s.setMem m).wait = s.wait := rfl
@[simp] theorem State.setMem_drawFlag (m : Memory) : (s.setMem m).drawFlag = s.drawFlag := rfl
@[simp] theorem State.setMem_clearFlag (m : Memory) : (s.setMem m).clearFlag = s.clearFlag := rfl
@[simp] theorem State.setMem_fb (m : Memory) : (s.setMem m).fb = s.fb := rfl
@[simp] theorem State.setMem_key (m : Memory) : (s.setMem m).key = s.key := rfl
@[simp] theorem State.setMem_dt (m : Memory) : (s.setMem m).dt = s.dt := rfl
@[simp] theorem State.setMem_rng (m : Memory) : (s.setMem m).rng = s.rng := rfl
@[simp] theorem State.setMem_fault (m : Memory) : (s.setMem m).fault = s.fault := rfl
@[simp] theorem State.setMem_timerRun (m : Memory) : (s.setMem m).timerRun = s.timerRun := rfl
@[simp] theorem State.setMem_schedule (m : Memory) : (s.setMem m).schedule = s.schedule := rfl

/-! `State.setReg` -/

@[simp] theorem State.setReg_params (x : RegIx) (b : Byte) : (s.setReg x b).params = s.params := rfl
@[simp] theorem State.setReg_loaded (x : RegIx) (b : Byte) : (s.setReg x b).loaded = s.loaded := rfl
@[simp] theorem State.setReg_mem (x : RegIx) (b : Byte) : (s.setReg x b).mem = s.mem := rfl
@[simp] theorem State.setReg_v (x : RegIx) (b : Byte) : (s.setReg x b).v = s.v.set x.val b := rfl
@[simp] theorem State.setReg_i (x : RegIx) (b : Byte) : (s.setReg x b).i = s.i := rfl
@[simp] theorem State.setReg_pc (x : RegIx) (b : Byte) : (s.setReg x b).pc = s.pc := rfl
@[simp] theorem State.setReg_stack (x : RegIx) (b : Byte) : (s.setReg x b).stack = s.stack := rfl
@[simp] theorem State.setReg_sp (x : RegIx) (b : Byte) : (s.setReg x b).sp = s.sp := rfl
@[simp] theorem State.setReg_curOp (x : RegIx) (b : Byte) : (s.setReg x b).curOp = s.curOp := rfl
@[simp] theorem State.setReg_wait (x : RegIx) (b : Byte) : (s.setReg x b).wait = s.wait := rfl
@[simp] theorem State.setReg_drawFlag (x : RegIx) (b : Byte) : (s.setReg x b).drawFlag = s.drawFlag := rfl
@[simp] theorem State.setReg_clearFlag (x : RegIx) (b : Byte) : (s.setReg x b).clearFlag = s.clearFlag := rfl
@[simp] theorem State.setReg_fb (x : RegIx) (b : Byte) : (s.setReg x b).fb = s.fb := rfl
@[simp] theorem State.setReg_key (x : RegIx) (b : Byte) : (s.setReg x b).key = s.key := rfl
@[simp] theorem State.setReg_dt (x : RegIx) (b : Byte) : (s.setReg x b).dt = s.dt := rfl
@[simp] theorem State.setReg_rng (x : RegIx) (b : Byte) : (s.setReg x b).rng = s.rng := rfl
@[simp] theorem State.setReg_fault (x : RegIx) (b : Byte) : (s.setReg x b).fault = s.fault := rfl
@[simp] theorem State.setReg_timerRun (x : RegIx) (b : Byte) : (s.setReg x b).timerRun = s.timerRun := rfl
@[simp] theorem State.setReg_schedule (x : RegIx) (b : Byte) : (s.setReg x b).schedule = s.schedule := rfl

/-! `State.setI` -/

@[simp] theorem State.setI_params (w : Word) : (s.setI w).params = s.params := rfl
@[simp] theorem State.setI_loaded (w : Word) : (s.setI w).loaded = s.loaded := rfl
@[simp] theorem State.setI_mem (w : Word) : (s.setI w).mem = s.mem := rfl
@[simp] theorem State.setI_v (w : Word) : (s.setI w).v = s.v := rfl
@[simp] theorem State.setI_i (w : Word) : (s.setI w).i = w := rfl
@[simp] theorem State.setI_pc (w : Word) : (s.setI w).pc = s.pc := rfl
@[simp] theorem State.setI_stack (w : Word) : (s.setI w).stack = s.stack := rfl
@[simp] theorem State.setI_sp (w : Word) : (s.setI w).sp = s.sp := rfl
@[simp] theorem State.setI_curOp (w : Word) : (s.setI w).curOp = s.curOp := rfl
@[simp] theorem State.setI_wait (w : Word) : (s.setI w).wait = s.wait := rfl
@[simp] theorem State.setI_drawFlag (w : Word) : (s.setI w).drawFlag = s.drawFlag := rfl
@[simp] theorem State.setI_clearFlag (w : Word) : (s.setI w).clearFlag = s.clearFlag := rfl
@[simp] theorem State.setI_fb (w : Word) : (s.setI w).fb = s.fb := rfl
@[simp] theorem State.setI_key (w : Word) : (s.setI w).key = s.key := rfl
@[simp] theorem State.setI_dt (w : Word) : (s.setI w).dt = s.dt := rfl
@[simp] theorem State.setI_rng (w : Word) : (s.setI w).rng = s.rng := rfl
@[simp] theorem State.setI_fault (w : Word) : (s.setI w).fault = s.fault := rfl
@[simp] theorem State.setI_timerRun (w : Word) : (s.setI w).timerRun = s.timerRun := rfl
@[simp] theorem State.setI_schedule (w : Word) : (s.setI w).schedule = s.schedule := rfl

/-! `State.setPc` -/

@[simp] theorem State.setPc_params (w : Word) : (s.setPc w).params = s.params := rfl
@[simp] theorem State.setPc_loaded (w : Word) : (s.setPc w).loaded = s.loaded := rfl
@[simp] theorem State.setPc_mem (w : Word) : (s.setPc w).mem = s.mem := rfl
@[simp] theorem State.setPc_v (w : Word) : (s.setPc w).v = s.v := rfl
@[simp] theorem State.setPc_i (w : Word) : (s.setPc w).i = s.i := rfl
@[simp] theorem State.setPc_pc (w : Word) : (s.setPc w).pc = w := rfl
@[simp] theorem State.setPc_stack (w : Word) : (s.setPc w).stack = s.stack := rfl
@[simp] theorem State.setPc_sp (w : Word) : (s.setPc w).sp = s.sp := rfl
@[simp] theorem State.setPc_curOp (w : Word) : (s.setPc w).curOp = s.curOp := rfl
@[simp] theorem State.setPc_wait (w : Word) : (s.setPc w).wait = s.wait := rfl
@[simp] theorem State.setPc_drawFlag (w : Word) : (s.setPc w).drawFlag = s.drawFlag := rfl
@[simp] theorem State.setPc_clearFlag (w : Word) : (s.setPc w).clearFlag = s.clearFlag := rfl
@[simp] theorem State.setPc_fb (w : Word) : (s.setPc w).fb = s.fb := rfl
@[simp] theorem State.setPc_key (w : Word) : (s.setPc w).key = s.key := rfl
@[simp] theorem State.setPc_dt (w : Word) : (s.setPc w).dt = s.dt := rfl
@[simp] theorem State.setPc_rng (w : Word) : (s.setPc w).rng = s.rng := rfl
@[simp] theorem State.setPc_fault (w : Word) : (s.setPc w).fault = s.fault := rfl
@[simp] theorem State.setPc_timerRun (w : Word) : (s.setPc w).timerRun = s.timerRun := rfl
@[simp] theorem State.setPc_schedule (w : Word) : (s.setPc w).schedule = s.schedule := rfl

/-! `State.setDt` -/

@[simp] theorem State.setDt_params (b : Byte) : (s.setDt b).params = s.params := rfl
@[simp] theorem State.setDt_loaded (b : Byte) : (s.setDt b).loaded = s.loaded := rfl
@[simp] theorem State.setDt_mem (b : Byte) : (s.setDt b).mem = s.mem := rfl
@[simp] theorem State.setDt_v (b : Byte) : (s.setDt b).v = s.v := rfl
@[simp] theorem State.setDt_i (b : Byte) : (s.setDt b).i = s.i := rfl
@[simp] theorem State.setDt_pc (b : Byte) : (s.setDt b).pc = s.pc := rfl
@[simp] theorem State.setDt_stack (b : Byte) : (s.setDt b).stack = s.stack := rfl
@[simp] theorem State.setDt_sp (b : Byte) : (s.setDt b).sp = s.sp := rfl
@[simp] theorem State.setDt_curOp (b : Byte) : (s.setDt b).curOp = s.curOp := rfl
@[simp] theorem State.setDt_wait (b : Byte) : (s.setDt b).wait = s.wait := rfl
@[simp] theorem State.setDt_drawFlag (b : Byte) : (s.setDt b).drawFlag = s.drawFlag := rfl
@[simp] theorem State.setDt_clearFlag (b : Byte) : (s.setDt b).clearFlag = s.clearFlag := rfl
@[simp] theorem State.setDt_fb (b : Byte) : (s.setDt b).fb = s.fb := rfl
@[simp] theorem State.setDt_key (b : Byte) : (s.setDt b).key = s.key := rfl
@[simp] theorem State.setDt_dt (b : Byte) : (s.setDt b).dt = b := rfl
@[simp] theorem State.setDt_rng (b : Byte) : (s.setDt b).rng = s.rng := rfl
@[simp] theorem State.setDt_fault (b : Byte) : (s.setDt b).fault = s.fault := rfl
@[simp] theorem State.setDt_timerRun (b : Byte) : (s.setDt b).timerRun = s.timerRun := rfl
@[simp] theorem State.setDt_schedule (b : Byte) : (s.setDt b).schedule = s.schedule := rfl

/-! `State.setWait` -/

@[simp] theorem State.setWait_params (w : Option RegIx) : (s.setWait w).params = s.params := rfl
@[simp] theorem State.setWait_loaded (w : Option RegIx) : (s.setWait w).loaded = s.loaded := rfl
@[simp] theorem State.setWait_mem (w : Option RegIx) : (s.setWait w).mem = s.mem := rfl
@[simp] theorem State.setWait_v (w : Option RegIx) : (s.setWait w).v = s.v := rfl
@[simp] theorem State.setWait_i (w : Option RegIx) : (s.setWait w).i = s.i := rfl
@[simp] theorem State.setWait_pc (w : Option RegIx) : (s.setWait w).pc = s.pc := rfl
@[simp] theorem State.setWait_stack (w : Option RegIx) : (s.setWait w).stack = s.stack := rfl
@[simp] theorem State.setWait_sp (w : Option RegIx) : (s.setWait w).sp = s.sp := rfl
@[simp] theorem State.setWait_curOp (w : Option RegIx) : (s.setWait w).curOp = s.curOp := rfl
@[simp] theorem State.setWait_wait (w : Option RegIx) : (s.setWait w).wait = w := rfl
@[simp] theorem State.setWait_drawFlag (w : Option RegIx) : (s.setWait w).drawFlag = s.drawFlag := rfl
@[simp] theorem State.setWait_clearFlag (w : Option RegIx) : (s.setWait w).clearFlag = s.clearFlag := rfl
@[simp] theorem State.setWait_fb (w : Option RegIx) : (s.setWait w).fb = s.fb := rfl
@[simp] theorem State.setWait_key (w : Option RegIx) : (s.setWait w).key = s.key := rfl
@[simp] theorem State.setWait_dt (w : Option RegIx) : (s.setWait w).dt = s.dt := rfl
@[simp] theorem State.setWait_rng (w : Option RegIx) : (s.setWait w).rng = s.rng := rfl
@[simp] theorem State.setWait_fault (w : Option RegIx) : (s.setWait w).fault = s.fault := rfl
@[simp] theorem State.setWait_timerRun (w : Option RegIx) : (s.setWait w).timerRun = s.timerRun := rfl
@[simp] theorem State.setWait_schedule (w : Option RegIx) : (s.setWait w).schedule = s.schedule := rfl

/-! `State.setFault` -/

@[simp] theorem State.setFault_params (f : Option FaultRecord) : (s.setFault f).params = s.params := rfl
@[simp] theorem State.setFault_loaded (f : Option FaultRecord) : (s.setFault f).loaded = s.loaded := rfl
@[simp] theorem State.setFault_mem (f : Option FaultRecord) : (s.setFault f).mem = s.mem := rfl
@[simp] theorem State.setFault_v (f : Option FaultRecord) : (s.setFault f).v = s.v := rfl
@[simp] theorem State.setFault_i (f : Option FaultRecord) : (s.setFault f).i = s.i := rfl
@[simp] theorem State.setFault_pc (f : Option FaultRecord) : (s.setFault f).pc = s.pc := rfl
@[simp] theorem State.setFault_stack (f : Option FaultRecord) : (s.setFault f).stack = s.stack := rfl
@[simp] theorem State.setFault_sp (f : Option FaultRecord) : (s.setFault f).sp = s.sp := rfl
@[simp] theorem State.setFault_curOp (f : Option FaultRecord) : (s.setFault f).curOp = s.curOp := rfl
@[simp] theorem State.setFault_wait (f : Option FaultRecord) : (s.setFault f).wait = s.wait := rfl
@[simp] theorem State.setFault_drawFlag (f : Option FaultRecord) : (s.setFault f).drawFlag = s.drawFlag := rfl
@[simp] theorem State.setFault_clearFlag (f : Option FaultRecord) : (s.setFault f).clearFlag = s.clearFlag := rfl
@[simp] theorem State.setFault_fb (f : Option FaultRecord) : (s.setFault f).fb = s.fb := rfl
@[simp] theorem State.setFault_key (f : Option FaultRecord) : (s.setFault f).key = s.key := rfl
@[simp] theorem State.setFault_dt (f : Option FaultRecord) : (s.setFault f).dt = s.dt := rfl
@[simp] theorem State.setFault_rng (f : Option FaultRecord) : (s.setFault f).rng = s.rng := rfl
@[simp] theorem State.setFault_fault (f : Option FaultRecord) : (s.setFault f).fault = f := rfl
@[simp] theorem State.setFault_timerRun (f : Option FaultRecord) : (s.setFault f).timerRun = s.timerRun := rfl
@[simp] theorem State.setFault_schedule (f : Option FaultRecord) : (s.setFault f).schedule = s.schedule := rfl

/-! `State.writeByte` -/

@[simp] theorem State.writeByte_params (a : Nat) (b : Byte) : (s.writeByte a b).params = s.params := rfl
@[simp] theorem State.writeByte_loaded (a : Nat) (b : Byte) : (s.writeByte a b).loaded = s.loaded := rfl
@[simp] theorem State.writeByte_mem (a : Nat) (b : Byte) : (s.writeByte a b).mem = Memory.write s.params.font s.mem a b := rfl
@[simp] theorem State.writeByte_v (a : Nat) (b : Byte) : (s.writeByte a b).v = s.v := rfl
@[simp] theorem State.writeByte_i (a : Nat) (b : Byte) : (s.writeByte a b).i = s.i := rfl
@[simp] theorem State.writeByte_pc (a : Nat) (b : Byte) : (s.writeByte a b).pc = s.pc := rfl
@[simp] theorem State.writeByte_stack (a : Nat) (b : Byte) : (s.writeByte a b).stack = s.stack := rfl
@[simp] theorem State.writeByte_sp (a : Nat) (b : Byte) : (s.writeByte a b).sp = s.sp := rfl
@[simp] theorem State.writeByte_curOp (a : Nat) (b : Byte) : (s.writeByte a b).curOp = s.curOp := rfl
@[simp] theorem State.writeByte_wait (a : Nat) (b : Byte) : (s.writeByte a b).wait = s.wait := rfl
@[simp] theorem State.writeByte_drawFlag (a : Nat) (b : Byte) : (s.writeByte a b).drawFlag = s.drawFlag := rfl
@[simp] theorem State.writeByte_clearFlag (a : Nat) (b : Byte) : (s.writeByte a b).clearFlag = s.clearFlag := rfl
@[simp] theorem State.writeByte_fb (a : Nat) (b : Byte) : (s.writeByte a b).fb = s.fb := rfl
@[simp] theorem State.writeByte_key (a : Nat) (b : Byte) : (s.writeByte a b).key = s.key := rfl
@[simp] theorem State.writeByte_dt (a : Nat) (b : Byte) : (s.writeByte a b).dt = s.dt := rfl
@[simp] theorem State.writeByte_rng (a : Nat) (b : Byte) : (s.writeByte a b).rng = s.rng := rfl
@[simp] theorem State.writeByte_fault (a : Nat) (b : Byte) : (s.writeByte a b).fault = s.fault := rfl
@[simp] theorem State.writeByte_timerRun (a : Nat) (b : Byte) : (s.writeByte a b).timerRun = s.timerRun := rfl
@[simp] theorem State.writeByte_schedule (a : Nat) (b : Byte) : (s.writeByte a b).schedule = s.schedule := rfl

/-! `State.skip` -/

@[simp] theorem State.skip_params : (s.skip).params = s.params := rfl
@[simp] theorem State.skip_loaded : (s.skip).loaded = s.loaded := rfl
@[simp] theorem State.skip_mem : (s.skip).mem = s.mem := rfl
@[simp] theorem State.skip_v : (s.skip).v = s.v := rfl
@[simp] theorem State.skip_i : (s.skip).i = s.i := rfl
@[simp] theorem State.skip_pc : (s.skip).pc = s.pc + 2 := rfl
@[simp] theorem State.skip_stack : (s.skip).stack = s.stack := rfl
@[simp] theorem State.skip_sp : (s.skip).sp = s.sp := rfl
@[simp] theorem State.skip_curOp : (s.skip).curOp = s.curOp := rfl
@[simp] theorem State.skip_wait : (s.skip).wait = s.wait := rfl
@[simp] theorem State.skip_drawFlag : (s.skip).drawFlag = s.drawFlag := rfl
@[simp] theorem State.skip_clearFlag : (s.skip).clearFlag = s.clearFlag := rfl
@[simp] theorem State.skip_fb : (s.skip).fb = s.fb := rfl
@[simp] theorem State.skip_key : (s.skip).key = s.key := rfl
@[simp] theorem State.skip_dt : (s.skip).dt = s.dt := rfl
@[simp] theorem State.skip_rng : (s.skip).rng = s.rng := rfl
@[simp] theorem State.skip_fault : (s.skip).fault = s.fault := rfl
@[simp] theorem State.skip_timerRun : (s.skip).timerRun = s.timerRun := rfl
@[simp] theorem State.skip_schedule : (s.skip).schedule = s.schedule := rfl

/-! `State.setRegFlag` -/

@[simp] theorem State.setRegFlag_params (x : RegIx) (b : Byte) (c : Bool) : (s.setRegFlag x b c).params = s.params := rfl
@[simp] theorem State.setRegFlag_loaded (x : RegIx) (b : Byte) (c : Bool) : (s.setRegFlag x b c).loaded = s.loaded := rfl
@[simp] theorem State.setRegFlag_mem (x : RegIx) (b : Byte) (c : Bool) : (s.setRegFlag x b c).mem = s.mem := rfl
@[simp] theorem State.setRegFlag_v (x : RegIx) (b : Byte) (c : Bool) : (s.setRegFlag x b c).v = (s.v.set x.val b).set 15 (flagByte c) := rfl
@[simp] theorem State.setRegFlag_i (x : RegIx) (b : Byte) (c : Bool) : (s.setRegFlag x b c).i = s.i := rfl
@[simp] theorem State.setRegFlag_pc (x : RegIx) (b : Byte) (c : Bool) : (s.setRegFlag x b c).pc = s.pc := rfl
@[simp] theorem State.setRegFlag_stack (x : RegIx) (b : Byte) (c : Bool) : (s.setRegFlag x b c).stack = s.stack := rfl
@[simp] theorem State.setRegFlag_sp (x : RegIx) (b : Byte) (c : Bool) : (s.setRegFlag x b c).sp = s.sp := rfl
@[simp] theorem State.setRegFlag_curOp (x : RegIx) (b : Byte) (c : Bool) : (s.setRegFlag x b c).curOp = s.curOp := rfl
@[simp] theorem State.setRegFlag_wait (x : RegIx) (b : Byte) (c : Bool) : (s.setRegFlag x b c).wait = s.wait := rfl
@[simp] theorem State.setRegFlag_drawFlag (x : RegIx) (b : Byte) (c : Bool) : (s.setRegFlag x b c).drawFlag = s.drawFlag := rfl
@[simp] theorem State.setRegFlag_clearFlag (x : RegIx) (b : Byte) (c : Bool) : (s.setRegFlag x b c).clearFlag = s.clearFlag := rfl
@[simp] theorem State.setRegFlag_fb (x : RegIx) (b : Byte) (c : Bool) : (s.setRegFlag x b c).fb = s.fb := rfl
@[simp] theorem State.setRegFlag_key (x : RegIx) (b : Byte) (c : Bool) : (s.setRegFlag x b c).key = s.key := rfl
@[simp] theorem State.setRegFlag_dt (x : RegIx) (b : Byte) (c : Bool) : (s.setRegFlag x b c).dt = s.dt := rfl
@[simp] theorem State.setRegFlag_rng (x : RegIx) (b : Byte) (c : Bool) : (s.setRegFlag x b c).rng = s.rng := rfl
@[simp] theorem State.setRegFlag_fault (x : RegIx) (b : Byte) (c : Bool) : (s.setRegFlag x b c).fault = s.fault := rfl
@[simp] theorem State.setRegFlag_timerRun (x : RegIx) (b : Byte) (c : Bool) : (s.setRegFlag x b c).timerRun = s.timerRun := rfl
@[simp] theorem State.setRegFlag_schedule (x : RegIx) (b : Byte) (c : Bool) : (s.setRegFlag x b c).schedule = s.schedule := rfl

/-! `State.clear` -/

@[simp] theorem State.clear_params : (s.clear).params = s.params := rfl
@[simp] theorem State.clear_loaded : (s.clear).loaded = s.loaded := rfl
@[simp] theorem State.clear_mem : (s.clear).mem = s.mem := rfl
@[simp] theorem State.clear_v : (s.clear).v = s.v := rfl
@[simp] theorem State.clear_i : (s.clear).i = s.i := rfl
@[simp] theorem State.clear_pc : (s.clear).pc = s.pc := rfl
@[simp] theorem State.clear_stack : (s.clear).stack = s.stack := rfl
@[simp] theorem State.clear_sp : (s.clear).sp = s.sp := rfl
@[simp] theorem State.clear_curOp : (s.clear).curOp = s.curOp := rfl
@[simp] theorem State.clear_wait : (s.clear).wait = s.wait := rfl
@[simp] theorem State.clear_drawFlag : (s.clear).drawFlag = s.drawFlag := rfl
@[simp] theorem State.clear_clearFlag : (s.clear).clearFlag = true := rfl
@[simp] theorem State.clear_fb : (s.clear).fb = Vector.replicate 32 0 := rfl
@[simp] theorem State.clear_key : (s.clear).key = s.key := rfl
@[simp] theorem State.clear_dt : (s.clear).dt = s.dt := rfl
@[simp] theorem State.clear_rng : (s.clear).rng = s.rng := rfl
@[simp] theorem State.clear_fault : (s.clear).fault = s.fault := rfl
@[simp] theorem State.clear_timerRun : (s.clear).timerRun = s.timerRun := rfl
@[simp] theorem State.clear_schedule : (s.clear).schedule = s.schedule := rfl

/-! `State.fetched` -/

@[simp] theorem State.fetched_params : (s.fetched).params = s.params := rfl
@[simp] theorem State.fetched_loaded : (s.fetched).loaded = s.loaded := rfl
@[simp] theorem State.fetched_mem : (s.fetched).mem = s.mem := rfl
@[simp] theorem State.fetched_v : (s.fetched).v = s.v := rfl
@[simp] theorem State.fetched_i : (s.fetched).i = s.i := rfl
@[simp] theorem State.fetched_pc : (s.fetched).pc = s.pc + 2 := rfl
@[simp] theorem State.fetched_stack : (s.fetched).stack = s.stack := rfl
@[simp] theorem State.fetched_sp : (s.fetched).sp = s.sp := rfl
@[simp] theorem State.fetched_curOp : (s.fetched).curOp = s.opcode := rfl
@[simp] theorem State.fetched_wait : (s.fetched).wait = s.wait := rfl
@[simp] theorem State.fetched_drawFlag : (s.fetched).drawFlag = s.drawFlag := rfl
@[simp] theorem State.fetched_clearFlag : (s.fetched).clearFlag = s.clearFlag := rfl
@[simp] theorem State.fetched_fb : (s.fetched).fb = s.fb := rfl
@[simp] theorem State.fetched_key : (s.fetched).key = s.key := rfl
@[simp] theorem State.fetched_dt : (s.fetched).dt = s.dt := rfl
@[simp] theorem State.fetched_rng : (s.fetched).rng = rngStep s.rng := rfl
@[simp] theorem State.fetched_fault : (s.fetched).fault = s.fault := rfl
@[simp] theorem State.fetched_timerRun : (s.fetched).timerRun = s.timerRun := rfl
@[simp] theorem State.fetched_schedule : (s.fetched).schedule = s.schedule := rfl

/-! `State.skipIf`: a skip or nothing. -/

@[simp] theorem State.skipIf_pc (c : Bool) : (s.skipIf c).pc = if c then s.pc + 2 else s.pc := by cases c <;> rfl
@[simp] theorem State.skipIf_params (c : Bool) : (s.skipIf c).params = s.params := by cases c <;> rfl
@[simp] theorem State.skipIf_loaded (c : Bool) : (s.skipIf c).loaded = s.loaded := by cases c <;> rfl
@[simp] theorem State.skipIf_mem (c : Bool) : (s.skipIf c).mem = s.mem := by cases c <;> rfl
@[simp] theorem State.skipIf_v (c : Bool) : (s.skipIf c).v = s.v := by cases c <;> rfl
@[simp] theorem State.skipIf_i (c : Bool) : (s.skipIf c).i = s.i := by cases c <;> rfl
@[simp] theorem State.skipIf_stack (c : Bool) : (s.skipIf c).stack = s.stack := by cases c <;> rfl
@[simp] theorem State.skipIf_sp (c : Bool) : (s.skipIf c).sp = s.sp := by cases c <;> rfl
@[simp] theorem State.skipIf_curOp (c : Bool) : (s.skipIf c).curOp = s.curOp := by cases c <;> rfl
@[simp] theorem State.skipIf_wait (c : Bool) : (s.skipIf c).wait = s.wait := by cases c <;> rfl
@[simp] theorem State.skipIf_drawFlag (c : Bool) : (s.skipIf c).drawFlag = s.drawFlag := by cases c <;> rfl
@[simp] theorem State.skipIf_clearFlag (c : Bool) : (s.skipIf c).clearFlag = s.clearFlag := by cases c <;> rfl
@[simp] theorem State.skipIf_fb (c : Bool) : (s.skipIf c).fb = s.fb := by cases c <;> rfl
@[simp] theorem State.skipIf_key (c : Bool) : (s.skipIf c).key = s.key := by cases c <;> rfl
@[simp] theorem State.skipIf_dt (c : Bool) : (s.skipIf c).dt = s.dt := by cases c <;> rfl
@[simp] theorem State.skipIf_rng (c : Bool) : (s.skipIf c).rng = s.rng := by cases c <;> rfl
@[simp] theorem State.skipIf_fault (c : Bool) : (s.skipIf c).fault = s.fault := by cases c <;> rfl
@[simp] theorem State.skipIf_timerRun (c : Bool) : (s.skipIf c).timerRun = s.timerRun := by cases c <;> rfl
@[simp] theorem State.skipIf_schedule (c : Bool) : (s.skipIf c).schedule = s.schedule := by cases c <;> rfl

/-! What is read through `params` and `mem`, `v` alone. -/

theorem byteAt_congr {s t : State} (hp : t.params = s.params) (hm : t.mem = s.mem) (a : Nat) :
    t.byteAt a = s.byteAt a := by simp only [State.byteAt, hp, hm]

theorem sameBytes_of_eq {s t : State} (hp : t.params = s.params) (hm : t.mem = s.mem) : ∀ a, t.byteAt a = s.byteAt a :=
  byteAt_congr hp hm

theorem reg_congr {s t : State} (hv : t.v = s.v) (x : RegIx) : t.reg x = s.reg x := by simp only [State.reg, hv]

end Sys2Proof.Machine
end

