-- ==== Sys2Proof/Laws/Ops.lean ====
section
/-! SUPPORT. Sys2Proof/Laws/Ops.lean: for each shared operation what it does, once: registers, runs of bytes, the bounds
check, the operand forms, the flags, a raised fault and the fault commit. -/

namespace Sys2Proof.Machine

/-! ### Registers -/

theorem State.reg_setReg (s : State) (x j : RegIx) (b : Byte) :
    (s.setReg x b).reg j = if j = x then b else s.reg j := by
  simp only [State.reg, State.setReg, Vector.getElem_set, Fin.ext_iff, eq_comm]

@[simp] theorem State.reg_setReg_same (s : State) (x : RegIx) (b : Byte) : (s.setReg x b).reg x = b := by
  rw [State.reg_setReg, if_pos rfl]

theorem State.reg_setReg_ne (s : State) {x j : RegIx} (b : Byte) (h : j ≠ x) : (s.setReg x b).reg j = s.reg j := by
  rw [State.reg_setReg, if_neg h]

/-- The flag is written last: VF holds it, whatever x is (R193). -/
@[simp] theorem State.reg_setRegFlag_vf (s : State) (x : RegIx) (b : Byte) (c : Bool) :
    (s.setRegFlag x b c).reg 15 = flagByte c := State.reg_setReg_same _ _ _

theorem State.reg_setRegFlag_same (s : State) {x : RegIx} (b : Byte) (c : Bool) (h : x ≠ 15) :
    (s.setRegFlag x b c).reg x = b := by
  rw [State.setRegFlag, State.reg_setReg_ne _ _ h, State.reg_setReg_same]

theorem State.reg_setRegFlag_ne (s : State) {x j : RegIx} (b : Byte) (c : Bool) (h : j ≠ x) (hf : j ≠ 15) :
    (s.setRegFlag x b c).reg j = s.reg j := by
  rw [State.setRegFlag, State.reg_setReg_ne _ _ hf, State.reg_setReg_ne _ _ h]

/-- A run of registers written changes nothing but V. -/
theorem State.setRegs_frame (s : State) (k : Nat) (bs : List Byte) :
    s.setRegs k bs = { s with v := (s.setRegs k bs).v } := by
  induction bs generalizing s k with
  | nil => rfl
  | cons b bs ih =>
    rw [State.setRegs]
    split
    · exact ih _ (k + 1)
    · exact ih _ (k + 1)

/-- V[k + m] holds byte m of the run; registers outside it are as before. -/
theorem State.reg_setRegs (s : State) (k : Nat) (bs : List Byte) (j : RegIx) (hk : k + bs.length ≤ 16) :
    (s.setRegs k bs).reg j = if k ≤ j.val then bs.getD (j.val - k) (s.reg j) else s.reg j := by
  induction bs generalizing s k with
  | nil => simp [State.setRegs]
  | cons b bs ih =>
    rw [List.length_cons] at hk
    rw [State.setRegs, dif_pos (by omega), ih _ (k + 1) (by omega), State.reg_setReg]
    by_cases hj : j = (⟨k, by omega⟩ : RegIx)
    · have hv : j.val = k := by rw [hj]
      simp [hj]
    · have hv : j.val ≠ k := fun h => hj (Fin.ext h)
      by_cases hl : k ≤ j.val
      · rw [if_pos (by omega), if_pos hl, if_neg hj, show j.val - k = (j.val - (k + 1)) + 1 by omega, List.getD_cons_succ]
      · rw [if_neg (by omega), if_neg hl, if_neg hj]

@[simp] theorem State.regsUpTo_length (s : State) (x : RegIx) : (s.regsUpTo x).length = x.val + 1 := by
  have := x.isLt
  simp only [State.regsUpTo, List.length_take, Vector.length_toList]
  omega

theorem State.regsUpTo_getElem (s : State) (x k : RegIx) (h : k.val < (s.regsUpTo x).length) :
    (s.regsUpTo x)[k.val] = s.reg k := by
  simp only [State.regsUpTo, List.getElem_take, Vector.getElem_toList, State.reg]

/-! ### Runs of bytes -/

@[simp] theorem State.readBytes_length (s : State) (a n : Nat) : (s.readBytes a n).length = n := by
  induction n generalizing a with
  | zero => rfl
  | succ n ih => rw [State.readBytes, List.length_cons, ih]

theorem State.readBytes_getElem (s : State) (a n k : Nat) (h : k < (s.readBytes a n).length) :
    (s.readBytes a n)[k] = s.byteAt (a + k) := by
  induction n generalizing a k with
  | zero => simp [State.readBytes] at h
  | succ n ih =>
    cases k with
    | zero => rfl
    | succ k =>
      have := ih (a + 1) k (by simpa [State.readBytes] using h)
      simpa [State.readBytes, show a + 1 + k = a + (k + 1) by omega] using this

theorem State.readBytes_getD (s : State) (a n k : Nat) (d : Byte) :
    (s.readBytes a n).getD k d = if k < n then s.byteAt (a + k) else d := by
  by_cases h : k < n
  · rw [if_pos h, List.getD_eq_getElem _ _ (by simpa using h), State.readBytes_getElem]
  · rw [if_neg h, List.getD_eq_default _ _ (by simpa using h)]

theorem State.byteAt_writeByte_ne (s : State) {a c : Nat} (b : Byte) (h : c ≠ a) : (s.writeByte a b).byteAt c = s.byteAt c :=
  Memory.read_write_ne _ _ b h

theorem State.byteAt_writeByte_same (s : State) (a : Nat) (b : Byte) (hw : Memory.wf s.params.font s.mem = true) :
    (s.writeByte a b).byteAt a = b := Memory.read_write_same _ hw a b

/-- A run of bytes stored changes nothing but MEM. -/
theorem State.writeBytes_frame (s : State) (a : Nat) (bs : List Byte) :
    s.writeBytes a bs = { s with mem := (s.writeBytes a bs).mem } := by
  induction bs generalizing s a with
  | nil => rfl
  | cons b bs ih => exact ih (s.writeByte a b) (a + 1)

@[simp] theorem State.writeBytes_params (s : State) (a : Nat) (bs : List Byte) :
    (s.writeBytes a bs).params = s.params := by rw [State.writeBytes_frame]

theorem State.writeBytes_wf (s : State) (a : Nat) (bs : List Byte) (hw : Memory.wf s.params.font s.mem = true)
    (h : a + bs.length ≤ 0x1000) : Memory.wf s.params.font (s.writeBytes a bs).mem = true := by
  induction bs generalizing s a with
  | nil => exact hw
  | cons b bs ih =>
    rw [List.length_cons] at h
    exact ih (s.writeByte a b) (a + 1) (Memory.wf_write _ hw (by omega) b) (by omega)

/-- Outside the run every byte reads as before, in any memory. -/
theorem State.byteAt_writeBytes_outside (s : State) (a c : Nat) (bs : List Byte) (h : c < a ∨ a + bs.length ≤ c) :
    (s.writeBytes a bs).byteAt c = s.byteAt c := by
  induction bs generalizing s a with
  | nil => rfl
  | cons b bs ih =>
    rw [List.length_cons] at h
    rw [State.writeBytes, ih (s.writeByte a b) (a + 1) (by omega), State.byteAt_writeByte_ne _ _ (by omega)]

/-- Inside the run each byte is the one stored, in a canonical memory. -/
theorem State.byteAt_writeBytes_inside (s : State) (a k : Nat) (bs : List Byte) (hw : Memory.wf s.params.font s.mem = true)
    (h : a + bs.length ≤ 0x1000) (hk : k < bs.length) : (s.writeBytes a bs).byteAt (a + k) = bs[k] := by
  induction bs generalizing s a k with
  | nil => exact absurd hk (Nat.not_lt_zero k)
  | cons b bs ih =>
    rw [List.length_cons] at h hk
    rw [State.writeBytes]
    cases k with
    | zero =>
      rw [State.byteAt_writeBytes_outside _ _ _ _ (by omega), Nat.add_zero, State.byteAt_writeByte_same _ _ _ hw]
      rfl
    | succ k =>
      rw [show a + (k + 1) = a + 1 + k by omega,
        ih (s.writeByte a b) (a + 1) k (Memory.wf_write _ hw (by omega) b) (by omega) (by omega)]
      rfl

/-! ### Operand forms -/

@[simp] theorem zext16_toNat (nnn : Addr) : (zext16 nnn).toNat = nnn.toNat := by
  rw [zext16, BitVec.toNat_setWidth]; omega

@[simp] theorem zextByte_toNat (b : Byte) : (zextByte b).toNat = b.toNat := by
  rw [zextByte, BitVec.toNat_setWidth]; omega

@[simp] theorem keyByte_toNat (k : Nibble) : (keyByte k).toNat = k.toNat := by
  rw [keyByte, BitVec.toNat_setWidth]; omega

/-- The jump with offset does not wrap (R158). -/
theorem jumpOffsetTarget_toNat (nnn : Addr) (b : Byte) : (jumpOffsetTarget nnn b).toNat = nnn.toNat + b.toNat := by
  rw [jumpOffsetTarget, BitVec.toNat_add, zext16_toNat, zextByte_toNat]; omega

theorem glyphAddress_toNat (b : Byte) : (glyphAddress b).toNat = 5 * (b.toNat % 16) := by
  rw [glyphAddress, BitVec.toNat_ofNat]; omega

/-- The lowest out-of-range address of a run from I is max(I, 0x1000) (R226). -/
theorem State.lowestBadAddr_eq (s : State) : s.lowestBadAddr = BitVec.ofNat 16 (max s.i.toNat 0x1000) := by
  unfold State.lowestBadAddr
  split
  · rename_i h; rw [Nat.max_eq_right (by omega)]; rfl
  · rename_i h; rw [Nat.max_eq_left (by omega), BitVec.ofNat_toNat, BitVec.setWidth_eq]

theorem State.spanInBounds_iff (s : State) (n : Nat) : s.spanInBounds n = true ↔ n = 0 ∨ s.i.toNat + n ≤ 0x1000 := by
  simp [State.spanInBounds]

/-- Every access of the instruction is in bounds: it goes on. -/
theorem State.withSpan_ok (s : State) {n : Nat} (go : State) (h : n = 0 ∨ s.i.toNat + n ≤ 0x1000) :
    s.withSpan n go = .next go := by rw [State.withSpan, if_pos ((s.spanInBounds_iff n).2 h)]

/-- Some access is out of bounds: BoundsViolation, and nothing else (R65). -/
theorem State.withSpan_bad (s : State) {n : Nat} (go : State) (h0 : n ≠ 0) (h : 0x1000 < s.i.toNat + n) :
    s.withSpan n go = raise .boundsViolation s.lowestBadAddr s := by
  rw [State.withSpan, if_neg (by rw [State.spanInBounds_iff]; omega)]

/-- Everything a checked access can answer. -/
theorem State.withSpan_cases (s : State) (n : Nat) (go t : State) (h : s.withSpan n go = .next t) :
    ((n = 0 ∨ s.i.toNat + n ≤ 0x1000) ∧ t = go) ∨
    (n ≠ 0 ∧ 0x1000 < s.i.toNat + n ∧
      t = s.setFault (some ⟨.boundsViolation, s.pc - 2, s.curOp, s.lowestBadAddr⟩)) := by
  by_cases hb : n = 0 ∨ s.i.toNat + n ≤ 0x1000
  · rw [State.withSpan_ok s go hb] at h
    exact .inl ⟨hb, (Host.Outcome.next.inj h).symm⟩
  · rw [State.withSpan_bad s go (by omega) (by omega)] at h
    exact .inr ⟨by omega, by omega, (Host.Outcome.next.inj h).symm⟩

theorem State.pressed_iff (s : State) (b : Byte) : s.pressed b = true ↔ ∃ k, s.key = some k ∧ b.toNat = k.toNat := by
  unfold State.pressed
  cases s.key with
  | none => simp
  | some k =>
    simp only [beq_iff_eq, BitVec.toNat_eq, keyByte_toNat]
    exact ⟨fun h => ⟨k, rfl, h⟩, fun ⟨k', hk, h⟩ => Option.some.inj hk ▸ h⟩

/-! ### Flags -/

theorem flagByte_toNat (c : Bool) : (flagByte c).toNat = c.toNat := by cases c <;> rfl

theorem outRight_toNat (b : Byte) : (outRight b).toNat = b.toNat % 2 := by
  revert b; decide

theorem outLeft_toNat (b : Byte) : (outLeft b).toNat = b.toNat / 128 := by
  revert b; decide

/-! ### Faults -/

/-- A raised fault is a next state with the record in FAULT and nothing else changed. -/
theorem raise_eq (code : FaultCode) (addr : Word) (s : State) :
    raise code addr s = .next { s with fault := some ⟨code, s.pc - 2, s.curOp, addr⟩ } := rfl

@[simp] theorem commit_next (start s : State) :
    commit start (.next s) = .next (if s.fault.isSome then { start with fault := s.fault, dt := s.dt } else s) := rfl

theorem commit_ok (start : State) {s : State} (h : s.fault = none) : commit start (.next s) = .next s := by
  rw [commit_next, h]; rfl

theorem commit_faulted (start : State) {s : State} {r : FaultRecord} (h : s.fault = some r) :
    commit start (.next s) = .next { start with fault := some r, dt := s.dt } := by
  rw [commit_next, h]; rfl

end Sys2Proof.Machine
end

