-- ==== Sys2Proof/Laws/Display.lean ====
section
/-! SUPPORT. Sys2Proof/Laws/Display.lean: what the draw loop does to one row and to the collision bit, and which pixel a bit
of a sprite byte lands on. -/

namespace Sys2Proof.Machine

/-- The sprite row that lands on framebuffer row `row`, if the sprite is tall enough (R251). -/
def rowOffset (ypos : Nat) (row : Fin 32) : Nat := (row.val + 32 - ypos % 32) % 32

/-- `spriteRow` and `rowOffset` are inverse to each other within 32 rows. -/
theorem spriteRow_eq_iff (ypos r : Nat) (row : Fin 32) (hr : r < 32) : spriteRow ypos r = row ↔ r = rowOffset ypos row := by
  have := row.isLt
  simp only [spriteRow, rowOffset, Fin.ext_iff]
  omega

theorem rowOffset_lt (ypos : Nat) (row : Fin 32) : rowOffset ypos row < 32 := Nat.mod_lt _ (by decide)

theorem spriteRow_rowOffset (ypos : Nat) (row : Fin 32) : spriteRow ypos (rowOffset ypos row) = row :=
  (spriteRow_eq_iff ypos _ row (rowOffset_lt ypos row)).2 rfl

/-- The draw loop on one row: XORed with its sprite byte's word if the sprite covers it, else as before. -/
theorem drawRows_row (xpos ypos r : Nat) (sprite : List Byte) (fb : Vector Row 32) (coll : Bool) (row : Fin 32)
    (hl : r + sprite.length ≤ 32) :
    (drawRows xpos ypos r sprite fb coll).1[row.val] =
      if r ≤ rowOffset ypos row ∧ rowOffset ypos row < r + sprite.length then
        fb[row.val] ^^^ spriteWord (sprite.getD (rowOffset ypos row - r) 0) xpos
      else fb[row.val] := by
  induction sprite generalizing r fb coll with
  | nil => rw [drawRows, if_neg (by simp)]
  | cons b sprite ih =>
    rw [List.length_cons] at hl
    have hrow := spriteRow_eq_iff ypos r row (by omega)
    rw [drawRows, ih (r + 1) _ _ (by omega)]
    simp only [Vector.getElem_set, List.length_cons]
    by_cases hk : r = rowOffset ypos row
    · have hv : (spriteRow ypos r).val = row.val := by rw [hrow.2 hk]
      rw [if_neg (by omega), if_pos hv, if_pos (by omega)]
      simp [hv, ← hk]
    · have hv : (spriteRow ypos r).val ≠ row.val := fun h => hk (hrow.1 (Fin.ext h))
      by_cases hc : r + 1 ≤ rowOffset ypos row ∧ rowOffset ypos row < r + 1 + sprite.length
      · rw [if_pos hc, if_neg hv, if_pos (by omega), show rowOffset ypos row - r = (rowOffset ypos row - (r + 1)) + 1 by omega,
          List.getD_cons_succ]
      · rw [if_neg hc, if_neg hv, if_neg (by omega)]

/-- The collision bit: some sprite row met a lit pixel. The rows of one sprite are distinct (R257), so each is tested
against the framebuffer as it was before the draw. -/
theorem drawRows_coll (xpos ypos r : Nat) (sprite : List Byte) (fb : Vector Row 32) (coll : Bool)
    (hl : r + sprite.length ≤ 32) :
    (drawRows xpos ypos r sprite fb coll).2 = true ↔
      coll = true ∨ ∃ (k : Nat) (h : k < sprite.length),
        overlaps fb[(spriteRow ypos (r + k)).val] (spriteWord sprite[k] xpos) = true := by
  induction sprite generalizing r fb coll with
  | nil => simp [drawRows]
  | cons b sprite ih =>
    rw [List.length_cons] at hl
    rw [drawRows, ih (r + 1) _ _ (by omega), Bool.or_eq_true, or_assoc]
    refine or_congr_right ?_
    have hne : ∀ k, k < sprite.length → (spriteRow ypos r).val ≠ (spriteRow ypos (r + 1 + k)).val := by
      intro k hk h
      simp only [spriteRow] at h
      omega
    constructor
    · rintro (h | ⟨k, hk, h⟩)
      · exact ⟨0, by simp, h⟩
      · rw [Vector.getElem_set, if_neg (hne k hk)] at h
        exact ⟨k + 1, by simpa using hk, by simpa [show r + (k + 1) = r + 1 + k by omega] using h⟩
    · rintro ⟨k, hk, h⟩
      cases k with
      | zero => exact .inl h
      | succ k =>
        rw [List.length_cons] at hk
        refine .inr ⟨k, by omega, ?_⟩
        rw [Vector.getElem_set, if_neg (hne k (by omega))]
        simpa [show r + (k + 1) = r + 1 + k by omega] using h

/-- Bit 63 - c of a sprite byte's word is bit 7 - j of the byte, j the column's distance from xpos round the edge, and 0
from the eighth column on (R251, R256, R257). -/
theorem spriteWord_column (b : Byte) (xpos c : Nat) (hx : xpos < 64) (hc : c < 64) :
    (spriteWord b xpos).getLsbD (63 - c) =
      (decide ((c + 64 - xpos) % 64 < 8) && b.getLsbD (7 - (c + 64 - xpos) % 64)) := by
  rw [spriteWord, BitVec.getLsbD_rotateRight, Nat.mod_eq_of_lt hx]
  by_cases h : xpos ≤ c
  · have hj : (c + 64 - xpos) % 64 = c - xpos := by omega
    rw [cond_eq_ite, if_pos (by simp; omega), hj, BitVec.getLsbD_shiftLeft, BitVec.getLsbD_setWidth]
    by_cases h8 : c - xpos < 8
    · simp [h8, show ¬ xpos + (63 - c) < 56 by omega, show xpos + (63 - c) < 64 by omega,
        show xpos + (63 - c) - 56 = 7 - (c - xpos) by omega, show 7 - (c - xpos) < 64 by omega]
    · simp [h8, show xpos + (63 - c) < 56 by omega]
  · have hj : (c + 64 - xpos) % 64 = c + 64 - xpos := by omega
    rw [cond_eq_ite, if_neg (by simp; omega), hj, BitVec.getLsbD_shiftLeft, BitVec.getLsbD_setWidth]
    by_cases h8 : c + 64 - xpos < 8
    · simp [h8, show 63 - c < 64 by omega, show ¬ 63 - c - (64 - xpos) < 56 by omega,
        show 63 - c - (64 - xpos) < 64 by omega, show 63 - c - (64 - xpos) - 56 = 7 - (c + 64 - xpos) by omega,
        show 7 - (c + 64 - xpos) < 64 by omega]
    · simp [h8, show 63 - c - (64 - xpos) < 56 by omega]

/-- Two rows overlap when some column is lit in both. -/
theorem overlaps_iff (row w : Row) :
    overlaps row w = true ↔ ∃ c, c < 64 ∧ row.getLsbD (63 - c) = true ∧ w.getLsbD (63 - c) = true := by
  rw [overlaps, bne_iff_ne, ne_eq, BitVec.eq_of_getLsbD_eq_iff, show (0 : Row) = 0#64 from rfl]
  simp only [BitVec.getLsbD_and, BitVec.getLsbD_zero, not_forall, Bool.not_eq_false, Bool.and_eq_true]
  constructor
  · rintro ⟨i, hi, h⟩
    exact ⟨63 - i, by omega, by simpa [show 63 - (63 - i) = i by omega] using h⟩
  · rintro ⟨c, hc, h⟩
    exact ⟨63 - c, by omega, h.1, h.2⟩

/-- draw() changes the framebuffer and raises DRAW_FLAG, and nothing else. -/
theorem State.draw_frame (s : State) (xpos ypos : Nat) (sprite : List Byte) :
    (s.draw xpos ypos sprite).1 = { s with fb := (s.draw xpos ypos sprite).1.fb, drawFlag := true } := rfl

end Sys2Proof.Machine
end

