-- ==== Sys2Proof/Laws/Exec.lean ====
section
/-! SUPPORT. Sys2Proof/Laws/Exec.lean: what an instruction can do to a state, said once as an inversion over all of `Instr`:
it runs and changes only the parts named, or it raises one of three faults and changes nothing else. -/

namespace Sys2Proof.Machine

/-! ### Inversions of the instructions with a fault or a branch in them -/

theorem execRet_cases {s t : State} (h : execRet s = .next t) :
    (s.sp.val = 0 ∧ t = s.setFault (some ⟨.stackUnderflow, s.pc - 2, s.curOp, 0⟩)) ∨
    (∃ h0 : 0 < s.sp.val, t = { s with sp := ⟨s.sp.val - 1, by have := s.sp.isLt; omega⟩,
                                       pc := s.stack[s.sp.val - 1]'(by have := s.sp.isLt; omega) }) := by
  unfold execRet at h
  split at h
  · rename_i h0
    exact .inl ⟨h0, (Host.Outcome.next.inj h).symm⟩
  · rename_i h0
    exact .inr ⟨by omega, (Host.Outcome.next.inj h).symm⟩

theorem execCall_cases {nnn : Addr} {s t : State} (h : execCall nnn s = .next t) :
    (s.sp.val = 24 ∧ t = s.setFault (some ⟨.stackOverflow, s.pc - 2, s.curOp, 0⟩)) ∨
    (∃ h0 : s.sp.val < 24, t = { s with stack := s.stack.set s.sp.val s.pc, sp := ⟨s.sp.val + 1, by omega⟩,
                                        pc := zext16 nnn }) := by
  have := s.sp.isLt
  unfold execCall at h
  split at h
  · rename_i h0
    exact .inr ⟨h0, (Host.Outcome.next.inj h).symm⟩
  · exact .inl ⟨by omega, (Host.Outcome.next.inj h).symm⟩

theorem execLdVxDt_cases {x : RegIx} {s t : State} (h : execLdVxDt x s = .next t) :
    (s.params.fx07Mode = .skipIfEqual ∧ t = s.skipIf (s.reg x == s.dt)) ∨
    (s.params.fx07Mode = .load ∧ t = s.setReg x s.dt) := by
  unfold execLdVxDt at h
  split at h
  · rename_i hm; exact .inl ⟨hm, (Host.Outcome.next.inj h).symm⟩
  · rename_i hm; exact .inr ⟨hm, (Host.Outcome.next.inj h).symm⟩

theorem bcdDigits_length (b : Byte) : (bcdDigits b).length = 3 := rfl

/-! ### The shape of every instruction's effect -/

/-- The instructions whose effect is on V0..VF alone, Fx07 in its load mode among them. -/
def writesRegs : Instr → Bool
  | .ldImm _ _ | .addImm _ _ | .ldReg _ _ | .orReg _ _ | .andReg _ _ | .xorReg _ _ | .addReg _ _ | .subReg _ _
  | .shrReg _ _ | .subnReg _ _ | .shlReg _ _ | .rnd _ _ | .fill _ | .ldVxDt _ => true
  | _ => false

/-- The instructions whose effect is on PC alone, Fx07 in its skip mode among them. -/
def writesPc : Instr → Bool
  | .jp _ | .jpV0 _ | .seImm _ _ | .sneImm _ _ | .seReg _ _ _ | .sneReg _ _ _ | .skp _ | .sknp _ | .ldVxDt _ => true
  | _ => false

/-- What one instruction does when it does not fault: it changes only the parts that its row's rule names. -/
inductive Effect (s : State) : Instr → State → Prop where
  | nothing (i) (hi : (∃ nnn, i = .sys nnn) ∨ ∃ x, i = .ldStVx x) : Effect s i s
  | regs (i) (t) (hi : writesRegs i = true) (ht : t = { s with v := t.v }) : Effect s i t
  | pc (i) (t) (hi : writesPc i = true) (ht : t = { s with pc := t.pc })
      (hp : t.pc = s.pc ∨ t.pc = s.pc + 2 ∨ t.pc.toNat ≤ 0x10FE) : Effect s i t
  | index (i) (t) (hi : (∃ nnn, i = .ldI nnn) ∨ (∃ x, i = .addI x) ∨ ∃ x, i = .ldF x) (ht : t = { s with i := t.i }) :
      Effect s i t
  | store (i) (n : Nat) (bs : List Byte) (hi : (∃ x, i = .ldB x) ∨ ∃ x, i = .dump x) (hn : bs.length = n)
      (h16 : n ≤ 16) (hb : s.i.toNat + n ≤ 0x1000) : Effect s i (s.writeBytes s.i.toNat bs)
  | push (nnn) (h : s.sp.val < 24) : Effect s (.call nnn)
      { s with stack := s.stack.set s.sp.val s.pc, sp := ⟨s.sp.val + 1, by omega⟩, pc := zext16 nnn }
  | pop (h : 0 < s.sp.val) : Effect s .ret
      { s with sp := ⟨s.sp.val - 1, by have := s.sp.isLt; omega⟩, pc := s.stack[s.sp.val - 1]'(by have := s.sp.isLt; omega) }
  | blank : Effect s .cls s.clear
  | drawn (x y n) (t) (ht : t = { s with v := t.v, fb := t.fb, drawFlag := true }) : Effect s (.drw x y n) t
  | delay (x) : Effect s (.ldDtVx x) (s.setDt (s.reg x))
  | wait (x) : Effect s (.ldVxK x) (s.setWait (some x))

/-- What one instruction does when it faults: FAULT alone, with the code and address of R310. -/
inductive Faulted (s : State) : Instr → State → Prop where
  | bounds (i) (hi : (∃ x y n, i = .drw x y n) ∨ ∃ x, i = .ldB x ∨ i = .dump x ∨ i = .fill x) :
      Faulted s i (s.setFault (some ⟨.boundsViolation, s.pc - 2, s.curOp, s.lowestBadAddr⟩))
  | overflow (nnn) (h : s.sp.val = 24) : Faulted s (.call nnn) (s.setFault (some ⟨.stackOverflow, s.pc - 2, s.curOp, 0⟩))
  | underflow (h : s.sp.val = 0) : Faulted s .ret (s.setFault (some ⟨.stackUnderflow, s.pc - 2, s.curOp, 0⟩))

theorem effect_setReg (s : State) {i : Instr} (hi : writesRegs i = true) (x : RegIx) (b : Byte) :
    Effect s i (s.setReg x b) := .regs i _ hi rfl

theorem effect_setRegFlag (s : State) {i : Instr} (hi : writesRegs i = true) (x : RegIx) (b : Byte) (c : Bool) :
    Effect s i (s.setRegFlag x b c) := .regs i _ hi rfl

theorem effect_skipIf (s : State) {i : Instr} (hi : writesPc i = true) (c : Bool) : Effect s i (s.skipIf c) := by
  refine .pc i _ hi (by cases c <;> rfl) ?_
  cases c
  · exact .inl rfl
  · exact .inr (.inl rfl)

theorem effect_setPc (s : State) {i : Instr} (hi : writesPc i = true) (w : Word) (h : w.toNat ≤ 0x10FE) :
    Effect s i (s.setPc w) := .pc i _ hi rfl (.inr (.inr h))

/-- Every instruction answers a next state: its effect, or one of the faults of R310. -/
theorem exec_cases (i : Instr) (s : State) : ∃ t, exec i s = .next t ∧ (Effect s i t ∨ Faulted s i t) := by
  have span : ∀ (j : Instr) (n : Nat) (go : State), (s.i.toNat + n ≤ 0x1000 ∨ n = 0 → Effect s j go) →
      ((∃ x y n, j = .drw x y n) ∨ ∃ x, j = .ldB x ∨ j = .dump x ∨ j = .fill x) →
      ∃ t, s.withSpan n go = .next t ∧ (Effect s j t ∨ Faulted s j t) := by
    intro j n go hgo hj
    by_cases hb : n = 0 ∨ s.i.toNat + n ≤ 0x1000
    · exact ⟨go, s.withSpan_ok go hb, .inl (hgo hb.symm)⟩
    · exact ⟨_, s.withSpan_bad go (by omega) (by omega), .inr (.bounds j hj)⟩
  cases i with
  | cls => exact ⟨_, rfl, .inl .blank⟩
  | ret =>
    by_cases h0 : s.sp.val = 0
    · exact ⟨_, by simp only [exec, execRet, dif_pos h0]; rfl, .inr (.underflow h0)⟩
    · exact ⟨_, by simp only [exec, execRet, dif_neg h0], .inl (.pop (by omega))⟩
  | sys nnn => exact ⟨s, rfl, .inl (.nothing _ (.inl ⟨nnn, rfl⟩))⟩
  | jp nnn => exact ⟨_, rfl, .inl (effect_setPc s rfl _ (by rw [zext16_toNat]; omega))⟩
  | call nnn =>
    by_cases h0 : s.sp.val < 24
    · exact ⟨_, by simp only [exec, execCall, dif_pos h0], .inl (.push nnn h0)⟩
    · exact ⟨_, by simp only [exec, execCall, dif_neg h0]; rfl, .inr (.overflow nnn (by have := s.sp.isLt; omega))⟩
  | seImm x kk => exact ⟨_, rfl, .inl (effect_skipIf s rfl _)⟩
  | sneImm x kk => exact ⟨_, rfl, .inl (effect_skipIf s rfl _)⟩
  | seReg x y n => exact ⟨_, rfl, .inl (effect_skipIf s rfl _)⟩
  | ldImm x kk => exact ⟨_, rfl, .inl (effect_setReg s rfl _ _)⟩
  | addImm x kk => exact ⟨_, rfl, .inl (effect_setReg s rfl _ _)⟩
  | ldReg x y => exact ⟨_, rfl, .inl (effect_setReg s rfl _ _)⟩
  | orReg x y => exact ⟨_, rfl, .inl (effect_setReg s rfl _ _)⟩
  | andReg x y => exact ⟨_, rfl, .inl (effect_setReg s rfl _ _)⟩
  | xorReg x y => exact ⟨_, rfl, .inl (effect_setReg s rfl _ _)⟩
  | addReg x y => exact ⟨_, rfl, .inl (effect_setRegFlag s rfl _ _ _)⟩
  | subReg x y => exact ⟨_, rfl, .inl (effect_setRegFlag s rfl _ _ _)⟩
  | shrReg x y => exact ⟨_, rfl, .inl (effect_setRegFlag s rfl _ _ _)⟩
  | subnReg x y => exact ⟨_, rfl, .inl (effect_setRegFlag s rfl _ _ _)⟩
  | shlReg x y => exact ⟨_, rfl, .inl (effect_setRegFlag s rfl _ _ _)⟩
  | sneReg x y n => exact ⟨_, rfl, .inl (effect_skipIf s rfl _)⟩
  | ldI nnn => exact ⟨_, rfl, .inl (.index _ _ (.inl ⟨nnn, rfl⟩) rfl)⟩
  | jpV0 nnn => exact ⟨_, rfl, .inl (effect_setPc s rfl _ (by rw [jumpOffsetTarget_toNat]; omega))⟩
  | rnd x kk => exact ⟨_, rfl, .inl (effect_setReg s rfl _ _)⟩
  | drw x y n => exact span _ _ _ (fun _ => .drawn x y n _ rfl) (.inl ⟨x, y, n, rfl⟩)
  | skp x => exact ⟨_, rfl, .inl (effect_skipIf s rfl _)⟩
  | sknp x => exact ⟨_, rfl, .inl (effect_skipIf s rfl _)⟩
  | ldVxDt x =>
    cases hm : s.params.fx07Mode with
    | skipIfEqual =>
      exact ⟨s.skipIf (s.reg x == s.dt), by simp only [exec, execLdVxDt, hm], .inl (effect_skipIf s rfl _)⟩
    | load => exact ⟨s.setReg x s.dt, by simp only [exec, execLdVxDt, hm], .inl (effect_setReg s rfl _ _)⟩
  | ldVxK x => exact ⟨_, rfl, .inl (.wait x)⟩
  | ldDtVx x => exact ⟨_, rfl, .inl (.delay x)⟩
  | ldStVx x => exact ⟨s, rfl, .inl (.nothing _ (.inr ⟨x, rfl⟩))⟩
  | addI x => exact ⟨_, rfl, .inl (.index _ _ (.inr (.inl ⟨x, rfl⟩)) rfl)⟩
  | ldF x => exact ⟨_, rfl, .inl (.index _ _ (.inr (.inr ⟨x, rfl⟩)) rfl)⟩
  | ldB x => exact span _ _ _ (fun h => .store _ 3 _ (.inl ⟨x, rfl⟩) rfl (by decide) (by omega)) (.inr ⟨x, .inl rfl⟩)
  | dump x =>
    exact span _ _ _ (fun h => .store _ (x.val + 1) _ (.inr ⟨x, rfl⟩) (s.regsUpTo_length x) (by omega) (by omega))
      (.inr ⟨x, .inr (.inl rfl)⟩)
  | fill x =>
    exact span _ _ _ (fun _ => .regs _ _ rfl (s.setRegs_frame 0 _)) (.inr ⟨x, .inr (.inr rfl)⟩)

/-- The same, of the state an instruction is known to have answered. -/
theorem exec_effect {i : Instr} {s t : State} (h : exec i s = .next t) : Effect s i t ∨ Faulted s i t := by
  obtain ⟨u, hu, he⟩ := exec_cases i s
  rw [h] at hu
  exact Host.Outcome.next.inj hu ▸ he

/-- An instruction that does not fault leaves FAULT as it was. -/
theorem Effect.fault_eq {s : State} {i : Instr} {t : State} (h : Effect s i t) : t.fault = s.fault := by
  cases h with
  | regs _ _ _ ht => rw [ht]
  | pc _ _ _ ht _ => rw [ht]
  | index _ _ _ ht => rw [ht]
  | drawn _ _ _ _ ht => rw [ht]
  | store => rw [State.writeBytes_frame]
  | _ => rfl

/-- A fault changes FAULT alone. -/
theorem Faulted.frame {s : State} {i : Instr} {t : State} (h : Faulted s i t) : t = { s with fault := t.fault } := by
  cases h <;> rfl

theorem Faulted.isSome {s : State} {i : Instr} {t : State} (h : Faulted s i t) : t.fault.isSome = true := by
  cases h <;> rfl

end Sys2Proof.Machine
end

