-- ==== Sys2Proof/Laws/Cycle.lean ====
section
/-! SUPPORT. Sys2Proof/Laws/Cycle.lean: what a cycle and a step can do, said once (40_cycle.md R120): the inversion that the
whole-machine claims cite instead of unfolding the step. -/

namespace Sys2Proof.Machine

/-! ### The fetch checks (R126) -/

theorem fetchFault_none_iff (pc : Word) : fetchFault pc = none ↔ FetchAccepts pc := by
  unfold fetchFault FetchAccepts
  split
  · simp only [reduceCtorEq, false_iff]; omega
  · split
    · simp only [reduceCtorEq, false_iff]; omega
    · simp only [true_iff]; omega

theorem fetchFault_range {pc : Word} (h : pc.toNat < 0x200 ∨ 0x1000 ≤ pc.toNat) : fetchFault pc = some .pcOutOfRange := by
  rw [fetchFault, if_pos h]

theorem fetchFault_odd {pc : Word} (h1 : 0x200 ≤ pc.toNat) (h2 : pc.toNat < 0x1000) (h3 : pc.toNat % 2 = 1) :
    fetchFault pc = some .pcMisaligned := by
  rw [fetchFault, if_neg (by omega), if_pos h3]

/-- Every fetch fault, with the PCs that raise it. -/
theorem fetchFault_some {pc : Word} {c : FaultCode} (h : fetchFault pc = some c) :
    (c = .pcOutOfRange ∧ (pc.toNat < 0x200 ∨ 0x1000 ≤ pc.toNat)) ∨
    (c = .pcMisaligned ∧ 0x200 ≤ pc.toNat ∧ pc.toNat < 0x1000 ∧ pc.toNat % 2 = 1) := by
  unfold fetchFault at h
  split at h
  · rename_i hp; exact .inl ⟨(Option.some.inj h).symm, hp⟩
  · split at h
    · rename_i h1 h2; exact .inr ⟨(Option.some.inj h).symm, by omega, by omega, h2⟩
    · cases h

/-! ### Inside a cycle -/

/-- The cycle's own in-cycle state is the one the claims write from the rules. -/
theorem State.fetched_eq_inCycle (s : State) : s.fetched = s.inCycle := rfl

theorem State.opcode_eq (s : State) : s.opcode = wordOfBytes (s.byteAt s.pc.toNat) (s.byteAt (s.pc.toNat + 1)) := rfl

/-- PC - 2 inside a cycle is the instruction's own address (R128, R131). -/
theorem State.inCycle_pc_sub (s : State) : s.inCycle.pc - 2 = s.pc := by
  simp [State.inCycle]

theorem State.inCycle_pc_toNat {s : State} (h : FetchAccepts s.pc) : s.inCycle.pc.toNat = s.pc.toNat + 2 := by
  obtain ⟨_, h2, _⟩ := h
  rw [State.inCycle, BitVec.toNat_add, show (2 : Word).toNat = 2 from rfl]
  omega

/-- Step 6 on a decoded word, and on an unmapped one (R104, R129). -/
theorem execute_ok {w : Word} {i : Instr} (h : decode w = .ok i) (s : State) : execute w s = exec i s := by
  rw [execute, h]

theorem execute_error {w : Word} {u : Unmapped} (h : decode w = .error u) (s : State) : execute w s = .next s := by
  rw [execute, h]

/-! ### The cycle by the state of the execution agent (R132) -/

theorem cycle_running {s : State} (h : s.Running) : cycle s = runCycle s := by
  obtain ⟨h1, h2, h3⟩ := h
  simp only [cycle, h1, h2, h3]; rfl

theorem cycle_waiting {s : State} {x : RegIx} (h : s.Waiting x) : cycle s = .next (blockedCycle x s) := by
  obtain ⟨h1, h2, h3⟩ := h
  simp only [cycle, h1, h2, h3]; rfl

theorem cycle_halted {s : State} (h : s.Halted) : cycle s = .next s := by
  obtain ⟨h1, h2⟩ := h
  obtain ⟨r, hr⟩ := Option.ne_none_iff_exists'.1 h2
  simp only [cycle, h1, hr]; rfl

theorem cycle_neverLoaded {s : State} (h : s.loaded = false) : cycle s = .refused .unloaded := by
  simp only [cycle, h]; rfl

/-- Everything a non-blocked cycle can do: a fetch fault; an unmapped word's no-op; an instruction's effect, kept; or an
instruction's fault, which discards all but the record. -/
inductive Ran (s : State) : State → Prop where
  | fetchFault (c : FaultCode) (h : fetchFault s.pc = some c) : Ran s (s.setFault (some ⟨c, s.pc, 0, 0⟩))
  | unmapped (u : Unmapped) (ha : FetchAccepts s.pc) (h : decode s.opcode = .error u) : Ran s s.inCycle
  | effect (i : Instr) (t : State) (ha : FetchAccepts s.pc) (h : decode s.opcode = .ok i) (he : Effect s.inCycle i t) :
      Ran s t
  | faulted (i : Instr) (t : State) (ha : FetchAccepts s.pc) (h : decode s.opcode = .ok i) (he : Faulted s.inCycle i t) :
      Ran s { s with fault := t.fault }

theorem runCycle_cases {s : State} (hf : s.fault = none) : ∃ t, runCycle s = .next t ∧ Ran s t := by
  unfold runCycle
  cases hp : fetchFault s.pc with
  | some c => exact ⟨_, rfl, .fetchFault c hp⟩
  | none =>
    have ha := (fetchFault_none_iff s.pc).1 hp
    cases hd : decode s.opcode with
    | error u =>
      refine ⟨_, ?_, .unmapped u ha hd⟩
      simp only [execute_error hd, State.fetched_eq_inCycle]
      exact commit_ok s hf
    | ok i =>
      obtain ⟨t, ht, he | he⟩ := exec_cases i s.inCycle
      · refine ⟨t, ?_, .effect i t ha hd he⟩
        simp only [execute_ok hd, State.fetched_eq_inCycle, ht]
        exact commit_ok s (he.fault_eq.trans hf)
      · refine ⟨_, ?_, .faulted i t ha hd he⟩
        obtain ⟨r, hr⟩ := Option.isSome_iff_exists.1 he.isSome
        have hdt : t.dt = s.dt := by rw [he.frame]; rfl
        simp only [execute_ok hd, State.fetched_eq_inCycle, ht, commit_faulted s hr, hdt, hr]

/-! ### The step by the schedule -/

theorem step_empty {s : State} (h : s.schedule = []) : step s = cycle s := by
  simp only [step, stepBlock, h]

theorem step_event {s : State} {e : Event} {rest : List Event} (h : s.schedule = e :: rest) :
    step s = perform e { s with schedule := rest } := by
  simp only [step, stepBlock, h]

/-- A step of a running block with an empty schedule. -/
theorem step_running {s : State} (hs : s.schedule = []) (h : s.Running) : ∃ t, step s = .next t ∧ Ran s t := by
  rw [step_empty hs, cycle_running h]
  exact runCycle_cases h.2.1

theorem step_ran {s t : State} (hs : s.schedule = []) (h : s.Running) (ht : step s = .next t) : Ran s t := by
  obtain ⟨u, hu, hr⟩ := step_running hs h
  rw [ht] at hu
  exact Host.Outcome.next.inj hu ▸ hr

/-! ### A blocked cycle -/

theorem blockedCycle_none {s : State} (x : RegIx) (h : s.key = none) : blockedCycle x s = s := by
  simp only [blockedCycle, h]

theorem blockedCycle_some {s : State} {k : Nibble} (x : RegIx) (h : s.key = some k) :
    blockedCycle x s = (s.setReg x (keyByte k)).setWait none := by
  simp only [blockedCycle, h]

/-! ### The timer agent and the host -/

/-- A tick changes DT alone. -/
theorem tick_frame (s : State) : tick s = { s with dt := (tick s).dt } := by
  unfold tick
  split <;> rfl

/-- DT after a tick: one less, saturating at zero, while TIMER_RUN is 1 (R325). -/
theorem tick_dt_toNat (s : State) : (tick s).dt.toNat = if s.timerRun then s.dt.toNat - 1 else s.dt.toNat := by
  unfold tick
  split
  · simp only [State.setDt_dt]
    split
    · rename_i h; rw [h]; rfl
    · rename_i h
      have h0 : s.dt.toNat ≠ 0 := fun h' => h (BitVec.eq_of_toNat_eq h')
      rw [BitVec.toNat_sub, show (1 : Byte).toNat = 1 from rfl]
      omega
  · rfl

/-- What each event but the cycle does to a loaded block. -/
theorem perform_tick {s : State} (h : s.loaded = true) : perform .tick s = .next (tick s) := if_pos h
theorem perform_setKey {s : State} (k : Option Nibble) (h : s.loaded = true) :
    perform (.setKey k) s = .next { s with key := k } := if_pos h
theorem perform_ackDraw {s : State} (h : s.loaded = true) : perform .ackDraw s = .next { s with drawFlag := false } :=
  if_pos h
theorem perform_ackClear {s : State} (h : s.loaded = true) : perform .ackClear s = .next { s with clearFlag := false } :=
  if_pos h
theorem perform_stopTimer {s : State} (h : s.loaded = true) : perform .stopTimer s = .next { s with timerRun := false } :=
  if_pos h
theorem perform_cycle (s : State) : perform .cycle s = cycle s := rfl
theorem perform_load_fits {s : State} {rom : List Byte} (seed : Byte) (slots : Vector Word 24) (h : rom.length ≤ 0xD00) :
    perform (.load rom seed slots) s = .next (s.loadRom rom seed slots) := by
  rw [perform, loadPort, if_neg (by omega)]
theorem perform_load_tooLarge {s : State} {rom : List Byte} (seed : Byte) (slots : Vector Word 24)
    (h : 0xD00 < rom.length) : perform (.load rom seed slots) s = .next s := by
  rw [perform, loadPort, if_pos h]

/-- A block never loaded refuses every event but a load. -/
theorem perform_neverLoaded {s : State} {e : Event} (h : s.loaded = false)
    (he : ∀ rom seed slots, e ≠ .load rom seed slots) : perform e s = .refused .unloaded := by
  have hl : ¬ s.loaded = true := by rw [h]; exact Bool.false_ne_true
  cases e with
  | cycle => exact cycle_neverLoaded h
  | load rom seed slots => exact absurd rfl (he rom seed slots)
  | tick => exact if_neg hl
  | setKey k => exact if_neg hl
  | ackDraw => exact if_neg hl
  | ackClear => exact if_neg hl
  | stopTimer => exact if_neg hl

/-- Everything a cycle of a loaded block can do (R120, R132). -/
theorem cycle_cases {s : State} (h : s.loaded = true) :
    ∃ t, cycle s = .next t ∧
      ((s.Halted ∧ t = s) ∨ (∃ x, s.Waiting x ∧ t = blockedCycle x s) ∨ (s.Running ∧ Ran s t)) := by
  by_cases hf : s.fault = none
  · cases hw : s.wait with
    | some x => exact ⟨_, cycle_waiting ⟨h, hf, hw⟩, .inr (.inl ⟨x, ⟨h, hf, hw⟩, rfl⟩)⟩
    | none =>
      obtain ⟨t, ht, hr⟩ := runCycle_cases hf
      exact ⟨t, (cycle_running ⟨h, hf, hw⟩).trans ht, .inr (.inr ⟨⟨h, hf, hw⟩, hr⟩)⟩
  · exact ⟨s, cycle_halted ⟨h, hf⟩, .inl ⟨⟨h, hf⟩, rfl⟩⟩

/-! ### Runs -/

theorem run_zero (s : State) : Sys2Proof.core.run 0 s = .next s := rfl

theorem run_next {s t : State} (n : Nat) (h : step s = .next t) :
    Sys2Proof.core.run (n + 1) s = Sys2Proof.core.run n t := by
  have h' : Sys2Proof.core.step s = .next t := h
  simp only [Host.Core.run, h']

theorem run_refused {s : State} {r : Refusal} (n : Nat) (h : step s = .refused r) :
    Sys2Proof.core.run (n + 1) s = .refused r := by
  have h' : Sys2Proof.core.step s = .refused r := h
  simp only [Host.Core.run, h']

end Sys2Proof.Machine
end

