-- ==== Sys2Proof/Laws/Word.lean ====
section
/-! SUPPORT. Sys2Proof/Laws/Word.lean: the fields of a word that was put together from fields, the fields of a word known
under a mask, and a word's two bytes. The encoding claims rest on these and unfold no bit vector again. -/

namespace Sys2Proof

/-! ### The forms fnnn, fxkk and fxyn -/

@[simp] theorem xBits_regBits (x : RegIx) : (regBits x).toFin = x := rfl

@[simp] theorem famField_wordNNN (f : Nibble) (nnn : Addr) : famField (wordNNN f nnn) = f := by
  unfold famField wordNNN
  rw [BitVec.extractLsb'_append_eq_of_le (w := 12) (by decide)]
  exact BitVec.extractLsb'_eq_self

@[simp] theorem nnnField_wordNNN (f : Nibble) (nnn : Addr) : nnnField (wordNNN f nnn) = nnn := by
  unfold nnnField wordNNN
  rw [BitVec.extractLsb'_append_eq_of_add_le (w := 12) (by decide)]
  exact BitVec.extractLsb'_eq_self

@[simp] theorem kkField_wordNNN (f : Nibble) (nnn : Addr) : kkField (wordNNN f nnn) = sysLowByte nnn := by
  unfold kkField wordNNN sysLowByte
  rw [BitVec.extractLsb'_append_eq_of_add_le (w := 12) (by decide)]

@[simp] theorem famField_wordXKK (f : Nibble) (x : RegIx) (kk : Byte) : famField (wordXKK f x kk) = f := by
  unfold famField wordXKK
  rw [BitVec.extractLsb'_append_eq_of_le (w := 4 + 8) (by decide)]
  exact BitVec.extractLsb'_eq_self

@[simp] theorem xField_wordXKK (f : Nibble) (x : RegIx) (kk : Byte) : xField (wordXKK f x kk) = x := by
  unfold xField wordXKK
  rw [BitVec.extractLsb'_append_eq_of_add_le (w := 4 + 8) (by decide),
    BitVec.extractLsb'_append_eq_of_le (w := 8) (by decide)]
  exact (congrArg BitVec.toFin BitVec.extractLsb'_eq_self).trans (xBits_regBits x)

@[simp] theorem kkField_wordXKK (f : Nibble) (x : RegIx) (kk : Byte) : kkField (wordXKK f x kk) = kk := by
  unfold kkField wordXKK
  rw [BitVec.extractLsb'_append_eq_of_add_le (w := 4 + 8) (by decide),
    BitVec.extractLsb'_append_eq_of_add_le (w := 8) (by decide)]
  exact BitVec.extractLsb'_eq_self

@[simp] theorem famField_wordXYN (f : Nibble) (x y : RegIx) (n : Nibble) : famField (wordXYN f x y n) = f := by
  unfold famField wordXYN
  rw [BitVec.extractLsb'_append_eq_of_le (w := 4 + (4 + 4)) (by decide)]
  exact BitVec.extractLsb'_eq_self

@[simp] theorem xField_wordXYN (f : Nibble) (x y : RegIx) (n : Nibble) : xField (wordXYN f x y n) = x := by
  unfold xField wordXYN
  rw [BitVec.extractLsb'_append_eq_of_add_le (w := 4 + (4 + 4)) (by decide),
    BitVec.extractLsb'_append_eq_of_le (w := 4 + 4) (by decide)]
  exact (congrArg BitVec.toFin BitVec.extractLsb'_eq_self).trans (xBits_regBits x)

@[simp] theorem yField_wordXYN (f : Nibble) (x y : RegIx) (n : Nibble) : yField (wordXYN f x y n) = y := by
  unfold yField wordXYN
  rw [BitVec.extractLsb'_append_eq_of_add_le (w := 4 + (4 + 4)) (by decide),
    BitVec.extractLsb'_append_eq_of_add_le (w := 4 + 4) (by decide),
    BitVec.extractLsb'_append_eq_of_le (w := 4) (by decide)]
  exact (congrArg BitVec.toFin BitVec.extractLsb'_eq_self).trans (xBits_regBits y)

@[simp] theorem nField_wordXYN (f : Nibble) (x y : RegIx) (n : Nibble) : nField (wordXYN f x y n) = n := by
  unfold nField wordXYN
  rw [BitVec.extractLsb'_append_eq_of_add_le (w := 4 + (4 + 4)) (by decide),
    BitVec.extractLsb'_append_eq_of_add_le (w := 4 + 4) (by decide),
    BitVec.extractLsb'_append_eq_of_add_le (w := 4) (by decide)]
  exact BitVec.extractLsb'_eq_self

/-! ### A word put together from its own fields -/

theorem wordNNN_fields (w : Word) : wordNNN (famField w) (nnnField w) = w :=
  (BitVec.extractLsb'_append_extractLsb'_eq_extractLsb' (x := w) (by decide)).trans BitVec.extractLsb'_eq_self

theorem nnnField_split (w : Word) : (w.extractLsb' 8 4 ++ kkField w : BitVec (4 + 8)) = nnnField w :=
  BitVec.extractLsb'_append_extractLsb'_eq_extractLsb' (x := w) (by decide)

theorem kkField_split (w : Word) : (w.extractLsb' 4 4 ++ nField w : BitVec (4 + 4)) = kkField w :=
  BitVec.extractLsb'_append_extractLsb'_eq_extractLsb' (x := w) (by decide)

theorem wordXKK_fields (w : Word) : wordXKK (famField w) (xField w) (kkField w) = w :=
  (congrArg (fun t : BitVec (4 + 8) => (famField w ++ t : BitVec (4 + (4 + 8)))) (nnnField_split w)).trans
    (wordNNN_fields w)

theorem wordXYN_fields (w : Word) : wordXYN (famField w) (xField w) (yField w) (nField w) = w :=
  (congrArg (fun t : BitVec (4 + 4) => (famField w ++ (w.extractLsb' 8 4 ++ t) : BitVec (4 + (4 + (4 + 4)))))
    (kkField_split w)).trans (wordXKK_fields w)

/-! ### The fields of a word known under a mask -/

/-- The masks of the map fix the family nibble: 0xF000 and every mask that covers it. -/
theorem famField_of_mask {w mask p : Word} {f : Nibble} (hm : famField mask = 0xF#4) (hp : famField p = f)
    (h : w &&& mask = p) : famField w = f := by
  have h' := congrArg famField h
  rw [hp, famField, BitVec.extractLsb'_and] at h'
  rw [← h']
  change famField w = famField w &&& famField mask
  rw [hm]
  exact (BitVec.and_allOnes (x := famField w)).symm

/-- The masks 0xF00F and 0xF0FF fix the low nibble. -/
theorem nField_of_mask {w mask p : Word} {n : Nibble} (hm : nField mask = 0xF#4) (hp : nField p = n)
    (h : w &&& mask = p) : nField w = n := by
  have h' := congrArg nField h
  rw [hp, nField, BitVec.extractLsb'_and] at h'
  rw [← h']
  change nField w = nField w &&& nField mask
  rw [hm]
  exact (BitVec.and_allOnes (x := nField w)).symm

/-- The mask 0xF0FF fixes the low byte. -/
theorem kkField_of_mask {w mask p : Word} {kk : Byte} (hm : kkField mask = 0xFF#8) (hp : kkField p = kk)
    (h : w &&& mask = p) : kkField w = kk := by
  have h' := congrArg kkField h
  rw [hp, kkField, BitVec.extractLsb'_and] at h'
  rw [← h']
  change kkField w = kkField w &&& kkField mask
  rw [hm]
  exact (BitVec.and_allOnes (x := kkField w)).symm

/-- The low byte of a word is what the mask 0x00FF leaves of it. -/
theorem kkField_eq_iff (w p : Word) (h : p &&& 0x00FF = p) : kkField w = kkField p ↔ w &&& 0x00FF = p := by
  constructor
  · intro hk
    have hw : ∀ v : Word, v &&& 0x00FF = (kkField v).setWidth 16 := by
      intro v
      ext i hi
      simp only [kkField, BitVec.getElem_and, BitVec.getElem_setWidth, BitVec.getLsbD_extractLsb', Nat.zero_add]
      rw [show ((0x00FF : Word)[i]) = decide (i < 8) from by revert i; decide, BitVec.getLsbD_eq_getElem hi, Bool.and_comm]
    rw [hw, hk, ← hw, h]
  · intro hw
    have := congrArg kkField hw
    rw [← this]
    exact (kkField_of_mask (mask := 0x00FF) (by decide) rfl rfl)

/-! ### The decoder, family by family -/

section Families
variable {w : Word}

theorem decode_family0 (h : famField w = 0x0#4) : decode w = .ok (decodeFamily0 w) := by rw [decode, h]; rfl
theorem decode_family1 (h : famField w = 0x1#4) : decode w = .ok (.jp (nnnField w)) := by rw [decode, h]; rfl
theorem decode_family2 (h : famField w = 0x2#4) : decode w = .ok (.call (nnnField w)) := by rw [decode, h]; rfl
theorem decode_family3 (h : famField w = 0x3#4) : decode w = .ok (.seImm (xField w) (kkField w)) := by rw [decode, h]; rfl
theorem decode_family4 (h : famField w = 0x4#4) : decode w = .ok (.sneImm (xField w) (kkField w)) := by rw [decode, h]; rfl
theorem decode_family5 (h : famField w = 0x5#4) : decode w = .ok (.seReg (xField w) (yField w) (nField w)) := by
  rw [decode, h]; rfl
theorem decode_family6 (h : famField w = 0x6#4) : decode w = .ok (.ldImm (xField w) (kkField w)) := by rw [decode, h]; rfl
theorem decode_family7 (h : famField w = 0x7#4) : decode w = .ok (.addImm (xField w) (kkField w)) := by rw [decode, h]; rfl
theorem decode_family8 (h : famField w = 0x8#4) : decode w = decodeFamily8 w := by rw [decode, h]; rfl
theorem decode_family9 (h : famField w = 0x9#4) : decode w = .ok (.sneReg (xField w) (yField w) (nField w)) := by
  rw [decode, h]; rfl
theorem decode_familyA (h : famField w = 0xA#4) : decode w = .ok (.ldI (nnnField w)) := by rw [decode, h]; rfl
theorem decode_familyB (h : famField w = 0xB#4) : decode w = .ok (.jpV0 (nnnField w)) := by rw [decode, h]; rfl
theorem decode_familyC (h : famField w = 0xC#4) : decode w = .ok (.rnd (xField w) (kkField w)) := by rw [decode, h]; rfl
theorem decode_familyD (h : famField w = 0xD#4) : decode w = .ok (.drw (xField w) (yField w) (nField w)) := by
  rw [decode, h]; rfl
theorem decode_familyE (h : famField w = 0xE#4) : decode w = decodeFamilyE w := by rw [decode, h]; rfl
theorem decode_familyF (h : famField w = 0xF#4) : decode w = decodeFamilyF w := by rw [decode, h]; rfl

end Families

/-- A nibble is one of sixteen. -/
theorem nibble_cases (n : Nibble) :
    n = 0x0#4 ∨ n = 0x1#4 ∨ n = 0x2#4 ∨ n = 0x3#4 ∨ n = 0x4#4 ∨ n = 0x5#4 ∨ n = 0x6#4 ∨ n = 0x7#4 ∨
    n = 0x8#4 ∨ n = 0x9#4 ∨ n = 0xA#4 ∨ n = 0xB#4 ∨ n = 0xC#4 ∨ n = 0xD#4 ∨ n = 0xE#4 ∨ n = 0xF#4 := by
  revert n; decide

/-! ### Bytes -/

@[simp] theorem wordOfBytes_hi_lo (w : Word) : wordOfBytes (hiByte w) (loByte w) = w :=
  (BitVec.extractLsb'_append_extractLsb'_eq_extractLsb' (x := w) (by decide)).trans BitVec.extractLsb'_eq_self

/-- Decoding the two bytes of a word is decoding the word. -/
theorem decodeBytes_bytesOfWord (w : Word) (i : Instr) (h : decode w = .ok i) :
    decodeBytes (bytesOfWord w) = .ok (i, []) := by
  simp only [bytesOfWord, decodeBytes, wordOfBytes_hi_lo, h]

/-- The host's table word decodes as the word does. -/
theorem decodeTableWord_16 (w : Nat) (i : Instr) (h : decode (BitVec.ofNat 16 (w % 2 ^ 16)) = .ok i) :
    decodeTableWord 16 w = some i := by
  simp only [decodeTableWord, decodeBytes_bytesOfWord _ _ h]

end Sys2Proof
end

