-- ==== Sys2Proof/Laws/PerInstr.lean ====
section
/-! SUPPORT. Sys2Proof/Laws/PerInstr.lean: the claims made of every instruction, one lemma per constructor. RowBits: the
word of a well-formed instruction has, under its row's mask, its row's pattern (30_encoding.md R94 to R99), so encoding an
instruction never strays into another row. -/

namespace Sys2Proof.Laws.RowBits

/-- The encoding of the instruction lies in the instruction's row of the opcode map. -/
def Statement (i : Instr) : Prop := i.wellFormed = true → encode i &&& i.mask = i.pattern

/-! A word of one of the three forms, under the three masks. -/

theorem wordNNN_and_F000 (f : Nibble) (nnn : Addr) : wordNNN f nnn &&& 0xF000 = wordNNN f 0 := by
  have h : (0xF000 : Word) = (0xF#4 ++ 0#12 : BitVec (4 + 12)) := by decide
  rw [h]
  change (f ++ nnn : BitVec (4 + 12)) &&& (0xF#4 ++ 0#12 : BitVec (4 + 12)) = (f ++ 0#12 : BitVec (4 + 12))
  rw [BitVec.and_append, BitVec.and_zero]
  exact congrArg (fun g : Nibble => (g ++ 0#12 : BitVec (4 + 12))) BitVec.and_allOnes

theorem wordXKK_eq_wordNNN (f : Nibble) (x : RegIx) (kk : Byte) : wordXKK f x kk = wordNNN f (regBits x ++ kk) := rfl

theorem wordXYN_eq_wordXKK (f : Nibble) (x y : RegIx) (n : Nibble) : wordXYN f x y n = wordXKK f x (regBits y ++ n) := rfl

theorem wordXKK_and_F000 (f : Nibble) (x : RegIx) (kk : Byte) : wordXKK f x kk &&& 0xF000 = wordNNN f 0 := by
  rw [wordXKK_eq_wordNNN, wordNNN_and_F000]

theorem wordXYN_and_F000 (f : Nibble) (x y : RegIx) (n : Nibble) : wordXYN f x y n &&& 0xF000 = wordNNN f 0 := by
  rw [wordXYN_eq_wordXKK, wordXKK_and_F000]

theorem wordXKK_and_F0FF (f : Nibble) (x : RegIx) (kk : Byte) : wordXKK f x kk &&& 0xF0FF = wordXKK f 0 kk := by
  have h : (0xF0FF : Word) = (0xF#4 ++ (0#4 ++ 0xFF#8) : BitVec (4 + (4 + 8))) := by decide
  rw [h]
  change (f ++ (regBits x ++ kk) : BitVec (4 + (4 + 8))) &&& (0xF#4 ++ (0#4 ++ 0xFF#8) : BitVec (4 + (4 + 8))) =
    (f ++ (0#4 ++ kk) : BitVec (4 + (4 + 8)))
  rw [BitVec.and_append, BitVec.and_append, BitVec.and_zero]
  exact congrArg₂ (fun (g : Nibble) (b : Byte) => (g ++ (0#4 ++ b) : BitVec (4 + (4 + 8))))
    BitVec.and_allOnes BitVec.and_allOnes

theorem wordXYN_and_F00F (f : Nibble) (x y : RegIx) (n : Nibble) : wordXYN f x y n &&& 0xF00F = wordXYN f 0 0 n := by
  have h : (0xF00F : Word) = (0xF#4 ++ (0#4 ++ (0#4 ++ 0xF#4)) : BitVec (4 + (4 + (4 + 4)))) := by decide
  rw [h]
  change (f ++ (regBits x ++ (regBits y ++ n)) : BitVec (4 + (4 + (4 + 4)))) &&&
    (0xF#4 ++ (0#4 ++ (0#4 ++ 0xF#4)) : BitVec (4 + (4 + (4 + 4)))) = (f ++ (0#4 ++ (0#4 ++ n)) : BitVec (4 + (4 + (4 + 4))))
  rw [BitVec.and_append, BitVec.and_append, BitVec.and_append, BitVec.and_zero, BitVec.and_zero]
  exact congrArg₂ (fun (g m : Nibble) => (g ++ (0#4 ++ (0#4 ++ m)) : BitVec (4 + (4 + (4 + 4)))))
    BitVec.and_allOnes BitVec.and_allOnes

/-! One lemma per constructor. -/

theorem cls : Statement .cls :=
  fun _ => by decide

theorem ret : Statement .ret :=
  fun _ => by decide

theorem sys (nnn : Addr) : Statement (.sys nnn) :=
  fun _ => (wordNNN_and_F000 _ _).trans rfl

theorem jp (nnn : Addr) : Statement (.jp nnn) :=
  fun _ => (wordNNN_and_F000 _ _).trans rfl

theorem call (nnn : Addr) : Statement (.call nnn) :=
  fun _ => (wordNNN_and_F000 _ _).trans rfl

theorem seImm (x : RegIx) (kk : Byte) : Statement (.seImm x kk) :=
  fun _ => (wordXKK_and_F000 _ _ _).trans rfl

theorem sneImm (x : RegIx) (kk : Byte) : Statement (.sneImm x kk) :=
  fun _ => (wordXKK_and_F000 _ _ _).trans rfl

theorem seReg (x y : RegIx) (n : Nibble) : Statement (.seReg x y n) :=
  fun _ => (wordXYN_and_F000 _ _ _ _).trans rfl

theorem ldImm (x : RegIx) (kk : Byte) : Statement (.ldImm x kk) :=
  fun _ => (wordXKK_and_F000 _ _ _).trans rfl

theorem addImm (x : RegIx) (kk : Byte) : Statement (.addImm x kk) :=
  fun _ => (wordXKK_and_F000 _ _ _).trans rfl

theorem ldReg (x y : RegIx) : Statement (.ldReg x y) :=
  fun _ => (wordXYN_and_F00F _ _ _ _).trans rfl

theorem orReg (x y : RegIx) : Statement (.orReg x y) :=
  fun _ => (wordXYN_and_F00F _ _ _ _).trans rfl

theorem andReg (x y : RegIx) : Statement (.andReg x y) :=
  fun _ => (wordXYN_and_F00F _ _ _ _).trans rfl

theorem xorReg (x y : RegIx) : Statement (.xorReg x y) :=
  fun _ => (wordXYN_and_F00F _ _ _ _).trans rfl

theorem addReg (x y : RegIx) : Statement (.addReg x y) :=
  fun _ => (wordXYN_and_F00F _ _ _ _).trans rfl

theorem subReg (x y : RegIx) : Statement (.subReg x y) :=
  fun _ => (wordXYN_and_F00F _ _ _ _).trans rfl

theorem shrReg (x y : RegIx) : Statement (.shrReg x y) :=
  fun _ => (wordXYN_and_F00F _ _ _ _).trans rfl

theorem subnReg (x y : RegIx) : Statement (.subnReg x y) :=
  fun _ => (wordXYN_and_F00F _ _ _ _).trans rfl

theorem shlReg (x y : RegIx) : Statement (.shlReg x y) :=
  fun _ => (wordXYN_and_F00F _ _ _ _).trans rfl

theorem sneReg (x y : RegIx) (n : Nibble) : Statement (.sneReg x y n) :=
  fun _ => (wordXYN_and_F000 _ _ _ _).trans rfl

theorem ldI (nnn : Addr) : Statement (.ldI nnn) :=
  fun _ => (wordNNN_and_F000 _ _).trans rfl

theorem jpV0 (nnn : Addr) : Statement (.jpV0 nnn) :=
  fun _ => (wordNNN_and_F000 _ _).trans rfl

theorem rnd (x : RegIx) (kk : Byte) : Statement (.rnd x kk) :=
  fun _ => (wordXKK_and_F000 _ _ _).trans rfl

theorem drw (x y : RegIx) (n : Nibble) : Statement (.drw x y n) :=
  fun _ => (wordXYN_and_F000 _ _ _ _).trans rfl

theorem skp (x : RegIx) : Statement (.skp x) :=
  fun _ => (wordXKK_and_F0FF _ _ _).trans rfl

theorem sknp (x : RegIx) : Statement (.sknp x) :=
  fun _ => (wordXKK_and_F0FF _ _ _).trans rfl

theorem ldVxDt (x : RegIx) : Statement (.ldVxDt x) :=
  fun _ => (wordXKK_and_F0FF _ _ _).trans rfl

theorem ldVxK (x : RegIx) : Statement (.ldVxK x) :=
  fun _ => (wordXKK_and_F0FF _ _ _).trans rfl

theorem ldDtVx (x : RegIx) : Statement (.ldDtVx x) :=
  fun _ => (wordXKK_and_F0FF _ _ _).trans rfl

theorem ldStVx (x : RegIx) : Statement (.ldStVx x) :=
  fun _ => (wordXKK_and_F0FF _ _ _).trans rfl

theorem addI (x : RegIx) : Statement (.addI x) :=
  fun _ => (wordXKK_and_F0FF _ _ _).trans rfl

theorem ldF (x : RegIx) : Statement (.ldF x) :=
  fun _ => (wordXKK_and_F0FF _ _ _).trans rfl

theorem ldB (x : RegIx) : Statement (.ldB x) :=
  fun _ => (wordXKK_and_F0FF _ _ _).trans rfl

theorem dump (x : RegIx) : Statement (.dump x) :=
  fun _ => (wordXKK_and_F0FF _ _ _).trans rfl

theorem fill (x : RegIx) : Statement (.fill x) :=
  fun _ => (wordXKK_and_F0FF _ _ _).trans rfl

end Sys2Proof.Laws.RowBits
end

