-- ==== Sys2Proof/Laws/Schedule.lean ====
section
/-! SUPPORT. Sys2Proof/Laws/Schedule.lean: the model's own field `schedule` is read by the step alone: no instruction and no
cycle reads it, so what a cycle does is the same whatever the agents do afterwards. -/

namespace Sys2Proof.Machine

/-- The state with another schedule. -/
def State.withSchedule (l : List Event) (s : State) : State := { s with schedule := l }

/-- A next state with another schedule; faults and refusals as they are. -/
def mapSchedule (l : List Event) : Host.Outcome State Fault Refusal → Host.Outcome State Fault Refusal
  | .next t => .next (t.withSchedule l)
  | .fault r => .fault r
  | .refused r => .refused r

variable (l : List Event)

theorem setRegs_withSchedule (s : State) (k : Nat) (bs : List Byte) :
    (s.withSchedule l).setRegs k bs = (s.setRegs k bs).withSchedule l := by
  induction bs generalizing s k with
  | nil => rfl
  | cons b bs ih =>
    rw [State.setRegs, State.setRegs]
    split
    · exact ih (s.setReg ⟨k, ‹_›⟩ b) (k + 1)
    · exact ih s (k + 1)

theorem readBytes_withSchedule (s : State) (a n : Nat) : (s.withSchedule l).readBytes a n = s.readBytes a n := by
  induction n generalizing a with
  | zero => rfl
  | succ n ih =>
    rw [State.readBytes, State.readBytes, ih]
    rfl

theorem writeBytes_withSchedule (s : State) (a : Nat) (bs : List Byte) :
    (s.withSchedule l).writeBytes a bs = (s.writeBytes a bs).withSchedule l := by
  induction bs generalizing s a with
  | nil => rfl
  | cons b bs ih => exact ih (s.writeByte a b) (a + 1)

theorem withSpan_withSchedule (s : State) (n : Nat) (go : State) :
    (s.withSchedule l).withSpan n (go.withSchedule l) = mapSchedule l (s.withSpan n go) := by
  have hb : (s.withSchedule l).spanInBounds n = s.spanInBounds n := rfl
  unfold State.withSpan
  rw [hb]
  split <;> rfl

theorem skipIf_withSchedule (s : State) (c : Bool) : (s.withSchedule l).skipIf c = (s.skipIf c).withSchedule l := by
  cases c <;> rfl

theorem exec_withSchedule (i : Instr) (s : State) : exec i (s.withSchedule l) = mapSchedule l (exec i s) := by
  have skip : ∀ c, Host.Outcome.next ((s.withSchedule l).skipIf c) = mapSchedule l (.next (s.skipIf c)) :=
    fun c => congrArg _ (skipIf_withSchedule l s c)
  cases i with
  | ret =>
    have hs : (s.withSchedule l).sp = s.sp := rfl
    simp only [exec, execRet, hs]
    split <;> rfl
  | call nnn =>
    have hs : (s.withSchedule l).sp = s.sp := rfl
    simp only [exec, execCall, hs]
    split <;> rfl
  | seImm x kk => exact skip _
  | sneImm x kk => exact skip _
  | seReg x y n => exact skip _
  | sneReg x y n => exact skip _
  | skp x => exact skip _
  | sknp x => exact skip _
  | ldVxDt x =>
    have hp : (s.withSchedule l).params = s.params := rfl
    simp only [exec, execLdVxDt, hp]
    split
    · exact skip _
    · rfl
  | drw x y n =>
    have hd : drawSprite x y n (s.withSchedule l) = (drawSprite x y n s).withSchedule l := by
      simp only [drawSprite, State.indexAddr]
      rw [readBytes_withSchedule]
      rfl
    simp only [exec, execDrw, hd]
    exact withSpan_withSchedule l s _ _
  | ldB x =>
    simp only [exec, execLdB, writeBytes_withSchedule]
    exact withSpan_withSchedule l s _ _
  | dump x =>
    simp only [exec, execDump, writeBytes_withSchedule]
    exact withSpan_withSchedule l s _ _
  | fill x =>
    simp only [exec, execFill, readBytes_withSchedule, setRegs_withSchedule]
    exact withSpan_withSchedule l s _ _
  | _ => rfl

/-- A cycle does the same under every schedule, and leaves the schedule alone. -/
theorem cycle_withSchedule (s : State) : cycle (s.withSchedule l) = mapSchedule l (cycle s) := by
  have h1 : (s.withSchedule l).loaded = s.loaded := rfl
  have h2 : (s.withSchedule l).fault = s.fault := rfl
  have h3 : (s.withSchedule l).wait = s.wait := rfl
  have h4 : (s.withSchedule l).key = s.key := rfl
  have h5 : (s.withSchedule l).pc = s.pc := rfl
  have h6 : (s.withSchedule l).opcode = s.opcode := rfl
  have h7 : (s.withSchedule l).fetched = s.fetched.withSchedule l := rfl
  simp only [cycle, h1, h2, h3]
  split
  · rfl
  · split
    · rfl
    · split
      · rename_i x _
        cases hk : s.key with
        | none => rw [blockedCycle_none x (h4.trans hk), blockedCycle_none x hk]; rfl
        | some k => rw [blockedCycle_some x (h4.trans hk), blockedCycle_some x hk]; rfl
      · simp only [runCycle, h5, h6, h7]
        cases fetchFault s.pc with
        | some c => rfl
        | none =>
          cases hd : decode s.opcode with
          | error u =>
            simp only [execute_error hd, commit_next]
            change Host.Outcome.next (if s.fetched.fault.isSome then _ else _) = _
            split <;> rfl
          | ok i =>
            simp only [execute_ok hd, exec_withSchedule]
            cases exec i s.fetched with
            | next t =>
              change Host.Outcome.next (if t.fault.isSome then _ else _) = mapSchedule l (.next _)
              split <;> rfl
            | fault r => rfl
            | refused r => rfl

end Sys2Proof.Machine
end

