-- ==== Sys2Proof/Tests/Slice0.lean ====
section
/-! SUPPORT. Sys2Proof/Tests/Slice0.lean: the model's own tests and the witnesses of the statements' hypotheses. Expected
values come from the spec: the encodings of 30_encoding.md R94 to R99 for the words, the vectors of 95_test_vectors.md
(named K, C, A, M, D, T and L as there) for the steps, and the rules where a comment names one. -/

namespace Sys2Proof.Tests

open Sys2Proof Sys2Proof.Machine

/-! ### Helpers -/

/-- An outcome is a next state with a property. -/
def answers (o : Host.Outcome State Fault Refusal) (p : State → Bool) : Bool :=
  match o with
  | .next t => p t
  | .fault _ => false
  | .refused _ => false

theorem answers_next {o : Host.Outcome State Fault Refusal} {p : State → Bool} (h : answers o p = true) :
    ∃ t, o = .next t ∧ p t = true := by
  cases o with
  | next t => exact ⟨t, rfl, h⟩
  | fault r => cases h
  | refused r => cases h

/-- A step's outcome is a next state with a property. -/
def after (s : State) (p : State → Bool) : Bool := answers (step s) p

/-- The vectors' common start state: the load state with seed 0x01. -/
def start : State := State.reset

/-- The word stands at PC. -/
def code (w : Word) (s : State) : State := s.writeBytes s.pc.toNat (bytesOfWord w)

/-- V0 and V1 hold these, and the word stands at PC. -/
def alu (w : Word) (v0 v1 : Byte) : State := code w ((start.setReg 0 v0).setReg 1 v1)

/-- After an ALU step V0 and VF hold these, and PC is past the instruction. -/
def aluResult (v0 flag : Byte) (t : State) : Bool := t.reg 0 == v0 && t.reg 15 == flag && t.pc == 0x202

/-- The cycle recorded this fault and left the rest of the state as it was. -/
def faulted (s : State) (code : FaultCode) (pc opcode addr : Word) (t : State) : Bool :=
  t == { s with fault := some { code := code, pc := pc, opcode := opcode, addr := addr } }

/-! ### WellFormed: each check refuses an ill-formed term -/

theorem test_wellFormed_refuses_sys_that_is_cls : Instr.wellFormed (.sys 0x0E0) = false := by decide
theorem test_wellFormed_refuses_sys_that_is_ret : Instr.wellFormed (.sys 0xAEE) = false := by decide
theorem test_wellFormed_accepts_sys : Instr.wellFormed (.sys 0x123) = true := by decide

/-! ### Decoding: the word of every row, written out from its pattern -/

theorem test_decode_family0 :
    decode 0b0000_0000_1110_0000 = .ok .cls ∧ decode 0b0000_0111_1110_0000 = .ok .cls ∧
    decode 0b0000_0000_1110_1110 = .ok .ret ∧ decode 0b0000_1111_1110_1110 = .ok .ret ∧
    decode 0b0000_0001_0010_0011 = .ok (.sys 0x123) ∧ decode 0x0000 = .ok (.sys 0x000) := by decide
theorem test_decode_families1to7 :
    decode 0b0001_0010_0000_1000 = .ok (.jp 0x208) ∧ decode 0b0010_0011_0000_0000 = .ok (.call 0x300) ∧
    decode 0b0011_0011_0010_1010 = .ok (.seImm 3 0x2A) ∧ decode 0b0100_0011_0010_1010 = .ok (.sneImm 3 0x2A) ∧
    decode 0b0101_0001_0010_0111 = .ok (.seReg 1 2 7) ∧ decode 0b0110_0000_0000_0101 = .ok (.ldImm 0 5) ∧
    decode 0b0111_0000_0000_0011 = .ok (.addImm 0 3) := by decide
theorem test_decode_family8 :
    decode 0b1000_0010_0001_0000 = .ok (.ldReg 2 1) ∧ decode 0b1000_0010_0001_0001 = .ok (.orReg 2 1) ∧
    decode 0b1000_0010_0001_0010 = .ok (.andReg 2 1) ∧ decode 0b1000_0010_0001_0011 = .ok (.xorReg 2 1) ∧
    decode 0b1000_0010_0001_0100 = .ok (.addReg 2 1) ∧ decode 0b1000_0010_0001_0101 = .ok (.subReg 2 1) ∧
    decode 0b1000_0010_0001_0110 = .ok (.shrReg 2 1) ∧ decode 0b1000_0010_0001_0111 = .ok (.subnReg 2 1) ∧
    decode 0b1000_0010_0001_1110 = .ok (.shlReg 2 1) := by decide
theorem test_decode_families9toD :
    decode 0b1001_0001_0010_1111 = .ok (.sneReg 1 2 15) ∧ decode 0b1010_0010_1111_0000 = .ok (.ldI 0x2F0) ∧
    decode 0b1011_0011_0000_0000 = .ok (.jpV0 0x300) ∧ decode 0b1100_0001_0000_1111 = .ok (.rnd 1 0x0F) ∧
    decode 0b1101_0001_0010_0101 = .ok (.drw 1 2 5) := by decide
theorem test_decode_familyE :
    decode 0b1110_0001_1001_1110 = .ok (.skp 1) ∧ decode 0b1110_0001_1010_0001 = .ok (.sknp 1) := by decide
theorem test_decode_familyF :
    decode 0b1111_0011_0000_0111 = .ok (.ldVxDt 3) ∧ decode 0b1111_0011_0000_1010 = .ok (.ldVxK 3) ∧
    decode 0b1111_0011_0001_0101 = .ok (.ldDtVx 3) ∧ decode 0b1111_0011_0001_1000 = .ok (.ldStVx 3) ∧
    decode 0b1111_0011_0001_1110 = .ok (.addI 3) ∧ decode 0b1111_0011_0010_1001 = .ok (.ldF 3) ∧
    decode 0b1111_0011_0011_0011 = .ok (.ldB 3) ∧ decode 0b1111_0011_0101_0101 = .ok (.dump 3) ∧
    decode 0b1111_0011_0110_0101 = .ok (.fill 3) := by decide
/-- R104: a word of each unmapped group. -/
theorem test_decode_unmapped :
    decode 0x8018 = .error (.family8 8) ∧ decode 0x801F = .error (.family8 15) ∧
    decode 0xE19F = .error (.familyE 0x9F) ∧ decode 0xFFFF = .error (.familyF 0xFF) ∧
    decode 0xF356 = .error (.familyF 0x56) := by decide
theorem test_decodeBytes_rest_and_truncated :
    decodeBytes [0x60, 0x05, 0x70] = .ok (.ldImm 0 5, [0x70]) ∧ decodeBytes [0x60] = .error .truncated ∧
    decodeBytes [0x80, 0x1A] = .error (.unmapped (.family8 0xA)) := by decide
theorem test_decodeTableWord : decodeTableWord 16 0xD125 = some (.drw 1 2 5) ∧ decodeTableWord 16 0x801A = none := by decide
theorem test_withFetchWord_runs_the_word :
    after (State.reset.withFetchWord 16 0x6005) (fun t => t.reg 0 == 5 && t.pc == 0x202) = true := by decide

/-! ### Cycle and key-wait -/

/-- K1. -/
theorem test_sys_changes_pc_curOp_rng_only :
    after start (fun t => t == { start with pc := 0x202, curOp := 0x0000, rng := 0x11 }) = true := by decide
/-- K3. -/
theorem test_blocked_cycle_with_key :
    after { start with wait := some 3, key := some 0xB, pc := 0x202 }
      (fun t => t == { start.setReg 3 0x0B with key := some 0xB, pc := 0x202 }) = true := by decide
/-- K4. -/
theorem test_halted_cycle_changes_nothing :
    let s := { start with fault := some { code := .stackOverflow, pc := 0x200, opcode := 0x2200, addr := 0 } }
    after s (fun t => t == s) = true := by decide
/-- K5. -/
theorem test_unmapped_word_is_a_no_op :
    after (code 0x801A start) (fun t => t == { code 0x801A start with pc := 0x202, curOp := 0x801A, rng := 0x11 }) = true := by
  decide
/-- C2's second cycle. -/
theorem test_odd_pc_faults :
    let s := { start with pc := 0x201 }
    after s (faulted s .pcMisaligned 0x201 0x0000 0) = true := by decide
/-- C3's second cycle, and C18's. -/
theorem test_pc_outside_the_range_faults :
    let s := { start with pc := 0x100 }
    let u := { start with pc := 0x1000 }
    after s (faulted s .pcOutOfRange 0x100 0x0000 0) = true ∧ after u (faulted u .pcOutOfRange 0x1000 0x0000 0) = true := by
  decide

/-! ### Control flow -/

/-- C1. -/
theorem test_jp : after (code 0x1208 start) (fun t => t.pc == 0x208) = true := by decide
/-- C4. -/
theorem test_call : after (code 0x2300 start) (fun t => t.stack[0] == 0x202 && t.sp == 1 && t.pc == 0x300) = true := by decide
/-- C5: RNG is put back. -/
theorem test_call_overflow :
    let s := code 0x2300 { start with sp := 24 }
    after s (faulted s .stackOverflow 0x200 0x2300 0) = true := by decide
/-- C6. -/
theorem test_ret :
    after (code 0x00EE { start with sp := 1, stack := start.stack.set 0 0x206 })
      (fun t => t.sp == 0 && t.pc == 0x206) = true := by decide
/-- C7. -/
theorem test_ret_underflow :
    after (code 0x00EE start) (faulted (code 0x00EE start) .stackUnderflow 0x200 0x00EE 0) = true := by decide
/-- C8, C9. -/
theorem test_seImm :
    after (code 0x332A (start.setReg 3 0x2A)) (fun t => t.pc == 0x204) = true ∧
    after (code 0x332A (start.setReg 3 0x2B)) (fun t => t.pc == 0x202) = true := by decide
/-- C10, and R155's example. -/
theorem test_sneImm :
    after (code 0x432A (start.setReg 3 0x2A)) (fun t => t.pc == 0x202) = true ∧
    after (code 0x432A start) (fun t => t.pc == 0x204) = true := by decide
/-- C12: n is ignored. -/
theorem test_seReg : after (code 0x5127 ((start.setReg 1 7).setReg 2 7)) (fun t => t.pc == 0x204) = true := by decide
/-- C13, C14. -/
theorem test_sneReg :
    after (code 0x9120 ((start.setReg 1 7).setReg 2 8)) (fun t => t.pc == 0x204) = true ∧
    after (code 0x9110 (start.setReg 1 7)) (fun t => t.pc == 0x202) = true := by decide
/-- C15, C17: no 12-bit wrap. -/
theorem test_jpV0 :
    after (code 0xB300 (start.setReg 0 0x10)) (fun t => t.pc == 0x310) = true ∧
    after (code 0xBFFE (start.setReg 0 4)) (fun t => t.pc == 0x1002) = true := by decide

/-! ### ALU -/

/-- A1, A3. -/
theorem test_addReg :
    after (alu 0x8014 0xC8 0x64) (aluResult 0x2C 1) = true ∧ after (alu 0x8014 0x7F 0x80) (aluResult 0xFF 0) = true := by
  decide
/-- A22, A23: the flag wins in VF. -/
theorem test_addReg_into_vf :
    after (code 0x8F14 ((start.setReg 15 0xFF).setReg 1 1)) (fun t => t.reg 15 == 1) = true ∧
    after (code 0x8F14 ((start.setReg 15 1).setReg 1 1)) (fun t => t.reg 15 == 0) = true := by decide
/-- A5, A6. -/
theorem test_subReg :
    after (alu 0x8015 0x05 0x07) (aluResult 0xFE 0) = true ∧ after (alu 0x8015 0x07 0x07) (aluResult 0x00 1) = true := by
  decide
/-- A9, A10. -/
theorem test_subnReg :
    after (alu 0x8017 0x07 0x05) (aluResult 0xFE 0) = true ∧ after (alu 0x8017 0x05 0x07) (aluResult 0x02 1) = true := by
  decide
/-- A12, A25. -/
theorem test_shrReg :
    after (alu 0x8016 0xAA 0x05) (aluResult 0x02 1) = true ∧
    after (code 0x8F16 (start.setReg 1 3)) (fun t => t.reg 15 == 1) = true := by decide
/-- A15, A16. -/
theorem test_shlReg :
    after (alu 0x801E 0x00 0x81) (aluResult 0x02 1) = true ∧ after (alu 0x801E 0x00 0x7F) (aluResult 0xFE 0) = true := by
  decide
/-- A18. -/
theorem test_orReg : after (alu 0x8011 0xF0 0x0F) (aluResult 0xFF 0) = true := by decide
/-- A19. -/
theorem test_andReg : after (alu 0x8012 0xF0 0x3C) (aluResult 0x30 0) = true := by decide
/-- A20. -/
theorem test_xorReg : after (alu 0x8013 0xFF 0x0F) (aluResult 0xF0 0) = true := by decide
/-- A21. -/
theorem test_ldReg : after (alu 0x8010 0x12 0x33) (aluResult 0x33 0) = true := by decide
/-- A33. -/
theorem test_ldImm : after (code 0x6005 start) (fun t => t.reg 0 == 5) = true := by decide
/-- A31, A32. -/
theorem test_addImm :
    after (code 0x70FF ((start.setReg 0 2).setReg 15 0x55)) (aluResult 0x01 0x55) = true ∧
    after (code 0x7F01 (start.setReg 15 0xFF)) (fun t => t.reg 15 == 0) = true := by decide
/-- A34, A35. -/
theorem test_rnd :
    after (code 0xC0FF start) (fun t => t.reg 0 == 0x11 && t.rng == 0x11) = true ∧
    after (code 0xC00F start) (fun t => t.reg 0 == 0x01) = true := by decide
/-- The spec's generator table: seeds 0x2A, 0x80, 0x21 and 0xFF. -/
theorem test_rngStep :
    rngStep 0x2A = 0xBF ∧ rngStep 0xBF = 0x70 ∧ rngStep 0x70 = 0x48 ∧ rngStep 0x80 = 0xC0 ∧ rngStep 0x1F = 0x80 ∧
    rngStep 0x21 = 0x21 ∧ rngStep 0xFF = 0x10 ∧ rngStep 0x10 = 0x18 := by decide

/-! ### Index and memory -/

/-- M1. -/
theorem test_ldI : after (code 0xA2F0 start) (fun t => t.i == 0x2F0) = true := by decide
/-- M2, M3. -/
theorem test_addI :
    after (code 0xF11E ((start.setI 0xFFF).setReg 1 1)) (fun t => t.i == 0x1000 && t.reg 15 == 0) = true ∧
    after (code 0xF11E ((start.setI 0xFFFF).setReg 1 1)) (fun t => t.i == 0x0000) = true := by decide
/-- M4, M6. -/
theorem test_ldF :
    after (code 0xF029 (start.setReg 0 0x0A)) (fun t => t.i == 0x032) = true ∧
    after (code 0xF029 (start.setReg 0 0x1A)) (fun t => t.i == 0x032) = true := by decide
/-- M7, at 128. -/
theorem test_ldB :
    after (code 0xF033 ((start.setI 0x300).setReg 0 128))
      (fun t => t.byteAt 0x300 == 1 && t.byteAt 0x301 == 2 && t.byteAt 0x302 == 8 && t.i == 0x300) = true := by decide
/-- M8, at 0x200. -/
theorem test_ldB_past_the_end :
    let s := code 0xF033 (start.setI 0xFFE)
    after s (faulted s .boundsViolation 0x200 0xF033 0x1000) = true := by decide
/-- M9. -/
theorem test_dump :
    after (code 0xF255 ((((start.setReg 0 1).setReg 1 2).setReg 2 3).setI 0x400))
      (fun t => t.byteAt 0x400 == 1 && t.byteAt 0x401 == 2 && t.byteAt 0x402 == 3 && t.byteAt 0x403 == 0 &&
        t.i == 0x400) = true := by decide
/-- M11. -/
theorem test_dump_past_the_end :
    let s := code 0xFF55 ((start.setI 0xFF8).setReg 0 7)
    after s (faulted s .boundsViolation 0x200 0xFF55 0x1000) = true := by decide
/-- M12. -/
theorem test_fill :
    after (code 0xF465 start)
      (fun t => t.reg 0 == 0xF0 && t.reg 1 == 0x90 && t.reg 4 == 0xF0 && t.reg 5 == 0) = true := by decide
/-- M14: the address is I itself. -/
theorem test_fill_past_the_end :
    let s := code 0xF065 (start.setI 0x2000)
    after s (faulted s .boundsViolation 0x200 0xF065 0x2000) = true := by decide
/-- R70: the font area can be written, and writing back what it read as leaves the memory it was (canonical form). -/
theorem test_font_is_writable :
    ((start.writeByte 0 0xAA).byteAt 0 = 0xAA) ∧ (start.writeByte 0 0xAA).writeByte 0 0xF0 = start := by decide

/-! ### Display -/

/-- D11. -/
theorem test_cls :
    after (code 0x00E0 { start with fb := Vector.replicate 32 0xFF })
      (fun t => t.fb == Vector.replicate 32 0 && t.clearFlag && !t.drawFlag && t.reg 15 == 0) = true := by decide
/-- D4: both edges. -/
theorem test_drw_wraps :
    after (code 0xD125 (((start.setI 0x032).setReg 1 62).setReg 2 30))
      (fun t => t.fb[30] == 0xC000000000000003 && t.fb[31] == 0x4000000000000002 && t.fb[0] == 0xC000000000000003 &&
        t.fb[1] == 0x4000000000000002 && t.fb[2] == 0x4000000000000002 && t.fb[3] == 0 && t.reg 15 == 0 && t.drawFlag) =
      true := by decide
/-- D7's collision, on its first row: glyph 0's F0 and glyph 1's 20. -/
theorem test_drw_collides :
    after (code 0xD011 ((start.setI 5).setReg 0 0 |> fun s => { s with fb := s.fb.set 0 0xF000000000000000 }))
      (fun t => t.fb[0] == 0xD000000000000000 && t.reg 15 == 1) = true := by decide
/-- D9: the coordinate is the old VF. -/
theorem test_drw_from_vf :
    after (code 0xDF05 (start.setReg 15 8)) (fun t => t.fb[0] == 0x00F0000000000000 && t.reg 15 == 0) = true := by decide
/-- D10. -/
theorem test_drw_past_the_end :
    let s := code 0xD015 (start.setI 0xFFC)
    after s (faulted s .boundsViolation 0x200 0xD015 0x1000) = true := by decide
/-- R251 worked by hand on a screen where the sprite's one pixel is lit already: the first draw meets it and clears it, the
second meets nothing and lights it again. So R258's sentence on the second draw can't hold on every screen (log entry 8). -/
theorem test_draw_twice_over_own_image :
    let s := { start with fb := start.fb.set 0 0x8000000000000000 }
    let d1 := s.draw 0 0 [0x80]
    let d2 := d1.1.draw 0 0 [0x80]
    d1.2 = true ∧ d1.1.fb[0] = 0 ∧ d2.2 = false ∧ d2.1.fb = s.fb := by decide
/-- R48: rows 0 to 31 and no other. -/
theorem test_rowPort :
    rowPort 31 { start with fb := start.fb.set 31 7 } = some 7 ∧ rowPort 32 start = none ∧
    rowPort 0 State.neverLoaded = none := by decide

/-! ### Timer and keys -/

/-- T1, T2. -/
theorem test_ldVxDt_skips :
    after (code 0xF307 ({ start with dt := 0x10 }.setReg 3 0x10)) (fun t => t.pc == 0x204) = true ∧
    after (code 0xF307 ({ start with dt := 0x0F }.setReg 3 0x10)) (fun t => t.pc == 0x202 && t.reg 3 == 0x10) = true := by
  decide
/-- T3. -/
theorem test_ldVxDt_loads :
    after (code 0xF307 { start with dt := 0x10, params := { Config.defaults with fx07Mode := .load } })
      (fun t => t.reg 3 == 0x10 && t.pc == 0x202) = true := by decide
/-- T4. -/
theorem test_ldDtVx : after (code 0xF215 (start.setReg 2 0x3C)) (fun t => t.dt == 0x3C) = true := by decide
/-- T7. -/
theorem test_ldStVx :
    after (code 0xF318 (start.setReg 3 9))
      (fun t => t == { code 0xF318 (start.setReg 3 9) with pc := 0x202, curOp := 0xF318, rng := 0x11 }) = true := by decide
/-- T9, T11. -/
theorem test_skp :
    after (code 0xE09E ({ start with key := some 5 }.setReg 0 5)) (fun t => t.pc == 0x204) = true ∧
    after (code 0xE09E ({ start with key := some 5 }.setReg 0 0x15)) (fun t => t.pc == 0x202) = true := by decide
/-- T12, T13. -/
theorem test_sknp :
    after (code 0xE0A1 (start.setReg 0 5)) (fun t => t.pc == 0x204) = true ∧
    after (code 0xE0A1 ({ start with key := some 5 }.setReg 0 5)) (fun t => t.pc == 0x202) = true := by decide
/-- T15's first cycle: a key already pending is not taken yet. -/
theorem test_ldVxK :
    after (code 0xF30A { start with key := some 4 }) (fun t => t.wait == some 3 && t.reg 3 == 0 && t.pc == 0x202) = true := by
  decide
/-- T5's ticks, and T6. -/
theorem test_tick :
    (tick { start with dt := 2 }).dt = 1 ∧ (tick start).dt = 0 ∧ (tick { start with dt := 5, timerRun := false }).dt = 5 := by
  decide

/-! ### Load -/

/-- L2, R351. -/
theorem test_load_too_large : (loadPort (List.replicate 0xD01 0) 1 start.stack start).1 = .romTooLarge := by
  rw [loadPort, if_pos (by rw [List.length_replicate]; decide)]
/-- R352, R353: the ROM from 0x200, the font below it, on a halted block. -/
theorem test_load :
    let s := { start with
      fault := some { code := .pcOutOfRange, pc := 0, opcode := 0, addr := 0 }
      schedule := [.load [0x12, 0x08] 7 start.stack] }
    after s (fun t => t.byteAt 0x200 == 0x12 && t.byteAt 0x201 == 0x08 && t.byteAt 5 == 0x20 && t.byteAt 0x202 == 0 &&
      t.rng == 7 && t.fault.isNone && t.pc == 0x200) = true := by decide

/-! ### Witnesses: concrete states and operands that meet a statement's hypotheses, at the ends of their ranges. A witness
is named after its statement in Certificates/Slice0/Obligations.lean; statements without hypotheses need none. -/

/-- The hypotheses "no event due, running, at a PC the fetch accepts", by evaluation. -/
def ready (s : State) : Bool :=
  s.schedule.isEmpty && s.loaded && s.fault.isNone && s.wait.isNone && (fetchFault s.pc).isNone

theorem ready_spec {s : State} (h : ready s = true) : s.schedule = [] ∧ s.Running ∧ FetchAccepts s.pc := by
  simp only [ready, Bool.and_eq_true, List.isEmpty_iff, Option.isNone_iff_eq_none] at h
  exact ⟨h.1.1.1.1, ⟨h.1.1.1.2, h.1.1.2, h.1.2⟩, (fetchFault_none_iff _).1 h.2⟩

/-- The word at a state's PC, as the statements write it. -/
def wordAtPc (s : State) : Word := wordOfBytes (s.byteAt s.pc.toNat) (s.byteAt (s.pc.toNat + 1))

/-- A block that recorded a fault. -/
def halted : State :=
  { start with fault := some { code := .stackOverflow, pc := 0x200, opcode := 0x2200, addr := 0 } }

theorem halted_halted : halted.Halted := ⟨rfl, by decide⟩

theorem length_d00 : (List.replicate 0xD00 (0 : Byte)).length = 0xD00 := List.length_replicate
theorem length_d01 : (List.replicate 0xD01 (0 : Byte)).length = 0xD01 := List.length_replicate

theorem witness_LoadInitialisesTheWholeBlock :
    0xD00 < (List.replicate 0xD01 (0 : Byte)).length ∧ (List.replicate 0xD00 (0 : Byte)).length ≤ 0xD00 := by
  rw [length_d00, length_d01]; decide
theorem witness_OversizedRomLoadsNothing :
    let s := { start with schedule := [.load (List.replicate 0xD01 0) 1 start.stack, .tick] }
    0xD00 < (List.replicate 0xD01 (0 : Byte)).length ∧
      s.schedule = .load (List.replicate 0xD01 0) 1 start.stack :: [.tick] := ⟨by rw [length_d01]; decide, rfl⟩
/-- Two return addresses at the ends of what R161 allows, a PC at the end of its range, a halted block: the invariant
holds of more than the reset state. -/
theorem witness_StepKeepsTheInvariant :
    (∃ t, State.Inv start ∧ step start = .next t) ∧
    State.Inv { halted with pc := 0x10FE, sp := 2, stack := (start.stack.set 0 0x202).set 1 0x1000 } := by
  refine ⟨?_, ⟨rfl, by decide, ?_, .inr rfl, ?_⟩⟩
  · obtain ⟨t, ht, -⟩ := answers_next (o := step start) (p := fun _ => true) (by decide)
    exact ⟨t, ⟨rfl, by decide, fun j h => absurd h (Nat.not_lt_zero j), .inl rfl, fun r h => by cases h⟩, ht⟩
  · intro j h
    have h : j < 2 := h
    match j, h with
    | 0, _ => exact (⟨by decide, by decide, by decide⟩ : ReturnAddress 0x202)
    | 1, _ => exact (⟨by decide, by decide, by decide⟩ : ReturnAddress 0x1000)
  · intro r h
    cases h
    exact ⟨⟨by decide, by decide, by decide⟩, rfl⟩
theorem witness_DecodeOfEncodeIsTheInstruction :
    Instr.wellFormed (.sys 0xFFF) = true ∧ Instr.wellFormed (.fill 15) = true ∧ Instr.wellFormed .cls = true := by decide
theorem witness_DecodedWordMatchesItsRow :
    decode 0x01E0 = .ok .cls ∧ encode .cls ≠ 0x01E0 ∧ decode 0xFF65 = .ok (.fill 15) := by decide
theorem witness_UnmappedWordsRunAsNoOps :
    (let s := code 0x801A start
     s.schedule = [] ∧ s.Running ∧ FetchAccepts s.pc ∧ ∃ u, decode (wordAtPc s) = .error u) ∧
    (let s := { start with pc := 0xFFE }
     s.schedule = [] ∧ s.Running ∧ FetchAccepts s.pc ∧ ∃ nnn, decode (wordAtPc s) = .ok (.sys nnn)) :=
  ⟨⟨(ready_spec (by decide)).1, (ready_spec (by decide)).2.1, (ready_spec (by decide)).2.2, .family8 0xA, by decide⟩,
    ⟨(ready_spec (by decide)).1, (ready_spec (by decide)).2.1, (ready_spec (by decide)).2.2, 0, by decide⟩⟩
/-- An instruction that completes, and one that faults. -/
theorem witness_StepRunsTheDecodedInstruction :
    (let s := code 0x6005 start
     s.schedule = [] ∧ s.Running ∧ FetchAccepts s.pc ∧ decode (wordAtPc s) = .ok (.ldImm 0 5) ∧
       ∃ t, exec (.ldImm 0 5) s.inCycle = .next t ∧ t.fault = none) ∧
    (let s := code 0x00EE start
     s.schedule = [] ∧ s.Running ∧ FetchAccepts s.pc ∧ decode (wordAtPc s) = .ok .ret ∧
       ∃ t, exec .ret s.inCycle = .next t ∧ t.fault ≠ none) :=
  ⟨⟨(ready_spec (by decide)).1, (ready_spec (by decide)).2.1, (ready_spec (by decide)).2.2, by decide, _, rfl, rfl⟩,
    ⟨(ready_spec (by decide)).1, (ready_spec (by decide)).2.1, (ready_spec (by decide)).2.2, by decide, _, rfl,
      Option.some_ne_none _⟩⟩
theorem witness_ScheduledCycleIsTheUnscheduledCycle :
    (∃ t, step { start with schedule := [] } = .next t) ∧
    step { State.neverLoaded with schedule := [] } = .refused .unloaded :=
  ⟨(answers_next (p := fun _ => true) (by decide)).imp fun _ h => h.1, rfl⟩
theorem witness_HaltedBlockStaysUntilALoad :
    halted.Halted ∧ halted.schedule = [] ∧
    (let s := { halted with dt := 3, schedule := [.tick, .setKey (some 4), .cycle, .load (List.replicate 0xD01 0) 1 start.stack] }
     s.Halted ∧
       (∀ rom seed slots, Event.load rom seed slots ∈ s.schedule → 0xD00 < rom.length) ∧
       ∃ t, Sys2Proof.core.run 3 s = .next t ∧ t.dt = 2 ∧ t.key = some 4) := by
  refine ⟨halted_halted, rfl, ⟨rfl, by decide⟩, ?_, _, rfl, by decide, rfl⟩
  intro rom seed slots h
  simp only [List.mem_cons, reduceCtorEq, List.not_mem_nil, or_false, false_or, Event.load.injEq] at h
  rw [h.1, length_d01]; decide
theorem witness_BlockedCyclesChangeNothing :
    let s := { start with wait := some 3 }
    s.Waiting 3 ∧ s.key = none ∧ s.schedule = [] := ⟨⟨rfl, rfl, rfl⟩, rfl, rfl⟩
theorem witness_KeyResolvesTheWait :
    (let s := { start with wait := some 15, key := some 15 }
     s.Waiting 15 ∧ s.key = some 15 ∧ s.schedule = []) ∧
    (let s := { start with wait := some 0, key := some 0 }
     s.Waiting 0 ∧ s.key = some 0 ∧ s.schedule = []) := ⟨⟨⟨rfl, rfl, rfl⟩, rfl, rfl⟩, ⟨rfl, rfl, rfl⟩, rfl, rfl⟩
/-- The ends of the three ranges: 0x1FF and 0x1000; 0x201 and 0xFFF; 0x200 and 0xFFE. No PC is in two of them. -/
theorem witness_FetchChecksThePc :
    (start.schedule = [] ∧ start.Running) ∧
    ((0x1FF : Word).toNat < 0x200 ∧ 0x1000 ≤ (0x1000 : Word).toNat) ∧
    (0x200 ≤ (0x201 : Word).toNat ∧ (0xFFF : Word).toNat < 0x1000 ∧ (0xFFF : Word).toNat % 2 = 1) ∧
    FetchAccepts 0x200 ∧ FetchAccepts 0xFFE ∧ ¬ FetchAccepts 0xFFF ∧ ¬ FetchAccepts 0x1000 := by
  refine ⟨⟨rfl, rfl, rfl, rfl⟩, by decide, by decide, ?_, ?_, ?_, ?_⟩ <;> unfold FetchAccepts <;> decide
/-- A running state whose cycle records each of the five codes. -/
theorem faulting_step (s : State) (c : FaultCode)
    (h1 : (s.schedule.isEmpty && s.loaded && s.fault.isNone && s.wait.isNone) = true)
    (h : after s (fun t => t.fault.map FaultRecord.code == some c) = true) :
    s.schedule = [] ∧ s.Running ∧ ∃ t r, step s = .next t ∧ t.fault = some r ∧ r.code = c := by
  simp only [Bool.and_eq_true, List.isEmpty_iff, Option.isNone_iff_eq_none] at h1
  obtain ⟨t, ht, hc⟩ := answers_next h
  rw [beq_iff_eq, Option.map_eq_some_iff] at hc
  obtain ⟨r, hr, hc⟩ := hc
  exact ⟨h1.1.1.1, ⟨h1.1.1.2, h1.1.2, h1.2⟩, t, r, ht, hr, hc⟩
theorem witness_FaultsArePrecise (c : FaultCode) :
    ∃ s t : State, ∃ r, s.schedule = [] ∧ s.Running ∧ step s = .next t ∧ t.fault = some r ∧ r.code = c := by
  have wrap : ∀ s : State, (s.schedule = [] ∧ s.Running ∧ ∃ t r, step s = .next t ∧ t.fault = some r ∧ r.code = c) →
      ∃ s t : State, ∃ r, s.schedule = [] ∧ s.Running ∧ step s = .next t ∧ t.fault = some r ∧ r.code = c :=
    fun s ⟨h1, h2, t, r, h3⟩ => ⟨s, t, r, h1, h2, h3⟩
  cases c with
  | boundsViolation => exact wrap _ (faulting_step (code 0xFF55 (start.setI 0xFF1)) _ (by decide) (by decide))
  | stackOverflow => exact wrap _ (faulting_step (code 0x2300 { start with sp := 24 }) _ (by decide) (by decide))
  | stackUnderflow => exact wrap _ (faulting_step (code 0x00EE start) _ (by decide) (by decide))
  | pcOutOfRange => exact wrap _ (faulting_step { start with pc := 0x1000 } _ (by decide) (by decide))
  | pcMisaligned => exact wrap _ (faulting_step { start with pc := 0xFFF } _ (by decide) (by decide))
/-- The other three instructions that raise BoundsViolation, each at the first I that does. -/
theorem witness_FaultTableOfTheSpec :
    after (code 0xD01F (start.setI 0xFF2)) (fun t => t.fault.map FaultRecord.addr == some 0x1000) = true ∧
    after (code 0xF033 (start.setI 0xFFE)) (fun t => t.fault.map FaultRecord.addr == some 0x1000) = true ∧
    after (code 0xF065 (start.setI 0x1000)) (fun t => t.fault.map FaultRecord.addr == some 0x1000) = true := by decide
theorem witness_RetiredCycleAdvancesTheGenerator :
    start.schedule = [] ∧ start.Running ∧ ∃ t, step start = .next t ∧ t.fault.isNone = true :=
  ⟨rfl, ⟨rfl, rfl, rfl⟩, answers_next (by decide)⟩
theorem witness_ExecutionAgentStateMachine :
    (State.neverLoaded.loaded = false ∧ State.neverLoaded.schedule = []) ∧ (start.Running ∧ start.schedule = []) ∧
    ({ start with wait := some 15 }.Waiting 15) ∧ (halted.Halted ∧ halted.schedule = []) ∧
    (∃ t, step (code 0xFF0A start) = .next t ∧ (t.wait == some 15) = true) ∧
    ({ halted with schedule := [.load [] 0 start.stack] }.schedule = .load [] 0 start.stack :: []) :=
  ⟨⟨rfl, rfl⟩, ⟨⟨rfl, rfl, rfl⟩, rfl⟩, ⟨rfl, rfl, rfl⟩, ⟨halted_halted, rfl⟩, answers_next (by decide), rfl⟩
theorem witness_NeverLoadedBlockIsRefused :
    State.neverLoaded.loaded = false ∧
    (let s := { State.neverLoaded with schedule := [.tick] }
     s.loaded = false ∧ s.schedule = .tick :: [] ∧ ∀ rom seed slots, Event.tick ≠ .load rom seed slots) ∧
    (let s := { State.neverLoaded with schedule := [.setKey (some 15)] }
     s.loaded = false ∧ s.schedule = .setKey (some 15) :: [] ∧
       ∀ rom seed slots, Event.setKey (some 15) ≠ .load rom seed slots) ∧
    (let s := { State.neverLoaded with schedule := [.load (List.replicate 0xD00 0) 1 start.stack] }
     s.schedule = .load (List.replicate 0xD00 0) 1 start.stack :: [] ∧ (List.replicate 0xD00 (0 : Byte)).length ≤ 0xD00) :=
  ⟨rfl, ⟨rfl, rfl, fun _ _ _ h => by cases h⟩, ⟨rfl, rfl, fun _ _ _ h => by cases h⟩, rfl, by rw [length_d00]⟩
theorem witness_CurrentOpcodeIsReadByNothing : start.loaded = true := rfl
theorem witness_TickDecrementsTheTimer :
    let s := { start with dt := 0, schedule := [.tick, .cycle] }
    let u := { halted with dt := 255, timerRun := false, schedule := [.tick] }
    (s.loaded = true ∧ s.schedule = .tick :: [.cycle]) ∧ u.loaded = true ∧ u.schedule = .tick :: [] :=
  ⟨⟨rfl, rfl⟩, rfl, rfl⟩
theorem witness_ManyTicksSaturateAtZero :
    let s := { start with dt := 2, schedule := [.tick, .tick, .tick, .cycle] }
    s.loaded = true ∧ s.schedule = List.replicate 3 .tick ++ [.cycle] := ⟨rfl, rfl⟩
theorem witness_OnlyTickAndSetDelayWriteTheTimer :
    (∃ t, step { start with dt := 1, schedule := [.tick] } = .next t ∧ (t.dt != 1) = true) ∧
    (∃ t, step { start with dt := 1, schedule := [.load [] 0 start.stack] } = .next t ∧ (t.dt != 1) = true) ∧
    (∃ t, step { code 0xF215 (start.setReg 2 0x3C) with schedule := [.cycle] } = .next t ∧ (t.dt != 0) = true) ∧
    (∃ t, step (code 0xF215 (start.setReg 2 0x3C)) = .next t ∧ (t.dt != 0) = true) :=
  ⟨answers_next (by decide), answers_next (by decide), answers_next (by decide), answers_next (by decide)⟩
theorem witness_DelayTimerIsReadByFx07Alone :
    (∀ x, Instr.ldDtVx 2 ≠ .ldVxDt x) ∧ (∀ x, Instr.addReg 0 1 ≠ .ldVxDt x) ∧ (∀ x, Instr.addReg 0 1 ≠ .ldDtVx x) ∧
    (∃ t, exec (.ldDtVx 2) start = .next t) ∧ ∃ t, exec (.addReg 0 1) start = .next t :=
  ⟨fun _ h => (by cases h), fun _ h => (by cases h), fun _ h => (by cases h), ⟨_, rfl⟩, ⟨_, rfl⟩⟩
theorem witness_HostPortsWriteTheirCells :
    start.loaded = true ∧ { start with schedule := [.setKey (some 15)] }.schedule = .setKey (some 15) :: [] ∧
    { start with schedule := [.ackDraw] }.schedule = .ackDraw :: [] ∧
    { start with schedule := [.ackClear] }.schedule = .ackClear :: [] ∧
    { start with schedule := [.stopTimer] }.schedule = .stopTimer :: [] := ⟨rfl, rfl, rfl, rfl, rfl⟩
/-- Words of the first and last value of each row's free bits, for every mask and pattern of the statements. -/
theorem witness_DecodesAs :
    ((0x0FFF : Word) &&& 0xF000 = 0x0000 ∧ (0x0FFF : Word) &&& 0x00FF ≠ 0x00E0 ∧ (0x0FFF : Word) &&& 0x00FF ≠ 0x00EE) ∧
    (0x0FE0 : Word) &&& 0xF0FF = 0x00E0 ∧ (0x0FEE : Word) &&& 0xF0FF = 0x00EE ∧ (0x1FFF : Word) &&& 0xF000 = 0x1000 ∧
    (0x8FF0 : Word) &&& 0xF00F = 0x8000 ∧ (0x800E : Word) &&& 0xF00F = 0x800E ∧ (0xEF9E : Word) &&& 0xF0FF = 0xE09E ∧
    (0xFF65 : Word) &&& 0xF0FF = 0xF065 := by decide
theorem witness_SysAndSoundDoNothing :
    (let s := code 0x0FFF start
     s.schedule = [] ∧ s.Running ∧ FetchAccepts s.pc ∧ ∃ nnn, decode (wordAtPc s) = .ok (.sys nnn)) ∧
    (let s := code 0xFF18 start
     s.schedule = [] ∧ s.Running ∧ FetchAccepts s.pc ∧ ∃ x, decode (wordAtPc s) = .ok (.ldStVx x)) :=
  ⟨⟨(ready_spec (by decide)).1, (ready_spec (by decide)).2.1, (ready_spec (by decide)).2.2, 0xFFF, by decide⟩,
    ⟨(ready_spec (by decide)).1, (ready_spec (by decide)).2.1, (ready_spec (by decide)).2.2, 15, by decide⟩⟩
theorem witness_RetPopsTheReturnAddress :
    0 < { start with sp := 1 }.sp.val ∧ 0 < { start with sp := 24 }.sp.val ∧ start.sp = 0 := by decide
theorem witness_CallPushesTheReturnAddress :
    start.sp.val < 24 ∧ { start with sp := 23 }.sp.val < 24 ∧ { start with sp := 24 }.sp = 24 := by decide
theorem witness_RetUndoesCall :
    ∃ s t u : State, s.sp.val < 24 ∧ exec (.call 0x300) s = .next t ∧ u.stack = t.stack ∧ u.sp = t.sp ∧ u.reg 3 ≠ s.reg 3 := by
  obtain ⟨t, ht, -⟩ := answers_next (o := exec (.call 0x300) { start with sp := 23 }) (p := fun _ => true) (by decide)
  exact ⟨{ start with sp := 23 }, t, t.setReg 3 1, by decide, ht, rfl, rfl, by rw [State.reg_setReg_same]; decide⟩
theorem witness_AddRegisterSetsCarry : (0 : RegIx) ≠ 15 ∧ (14 : RegIx) ≠ 15 := by decide
theorem witness_SubtractionsSetNotBorrow : (0 : RegIx) ≠ 15 ∧ (14 : RegIx) ≠ 15 := by decide
theorem witness_ShiftsReadVyAndWriteVx : (0 : RegIx) ≠ 15 ∧ (14 : RegIx) ≠ 15 := by decide
theorem witness_RndMasksTheAdvancedGenerator :
    let s := code 0xCFFF start
    s.schedule = [] ∧ s.Running ∧ FetchAccepts s.pc ∧ decode (wordAtPc s) = .ok (.rnd 15 0xFF) :=
  ⟨(ready_spec (by decide)).1, (ready_spec (by decide)).2.1, (ready_spec (by decide)).2.2, by decide⟩
/-- The last I that fits and the first that does not, on a canonical memory. -/
theorem witness_BcdWritesThreeDigits :
    (start.setI 0xFFD).i.toNat + 2 < 0x1000 ∧ Memory.wf start.params.font (code 0xF033 start).mem = true ∧
    0x1000 ≤ (start.setI 0xFFE).i.toNat + 2 := by decide
theorem witness_DumpStoresRegistersUpToX :
    (start.setI 0xFF0).i.toNat + (15 : RegIx).val < 0x1000 ∧ Memory.wf start.params.font start.mem = true ∧
    0x1000 ≤ (start.setI 0xFF1).i.toNat + (15 : RegIx).val ∧ (start.setI 0xFFF).i.toNat + (0 : RegIx).val < 0x1000 := by decide
theorem witness_FillLoadsRegistersUpToX :
    (start.setI 0xFF0).i.toNat + (15 : RegIx).val < 0x1000 ∧ 0x1000 ≤ (start.setI 0xFF1).i.toNat + (15 : RegIx).val ∧
    0x1000 ≤ (start.setI 0xFFFF).i.toNat + (0 : RegIx).val := by decide
theorem witness_FillUndoesDump :
    let s := (start.setI 0xFF0).setReg 15 7
    Memory.wf s.params.font s.mem = true ∧ s.i.toNat + (15 : RegIx).val < 0x1000 ∧ ∃ t, exec (.dump 15) s = .next t :=
  ⟨by decide, by decide, _, rfl⟩
theorem witness_CanonicalMemoriesAreEqualData :
    Memory.wf Config.standardFont [(0, 0xAA), (0x200, 1), (0xFFF, 2)] = true ∧
    Memory.wf Config.standardFont [(0, 0xF0)] = false ∧ Memory.wf Config.standardFont [(0x1000, 1)] = false := by decide
/-- n = 0 anywhere; a sprite of 15 rows at the last I that fits and at the first that does not. -/
theorem witness_DrwXorsTheSpritePixels :
    ((0 : Nibble) = 0 ∨ (start.setI 0xFFFF).i.toNat + (0 : Nibble).toNat - 1 < 0x1000) ∧
    ((15 : Nibble) = 0 ∨ (start.setI 0xFF1).i.toNat + (15 : Nibble).toNat - 1 < 0x1000) ∧
    ((15 : Nibble) ≠ 0 ∧ 0x1000 ≤ (start.setI 0xFF2).i.toNat + (15 : Nibble).toNat - 1) := by decide
/-- A sprite of 15 rows at the right edge, on a screen that is blank. -/
theorem witness_DrawingTwiceRestoresTheScreen :
    63 < 64 ∧ (List.replicate 15 (0xFF : Byte)).length ≤ 15 ∧ ∀ r : Fin 32, start.fb[r.val] = 0 := by decide
theorem witness_RowPortAnswersTheRow : start.loaded = true ∧ 31 < 32 ∧ 32 ≤ 32 := by decide
theorem witness_DelayInstructionsUseTheTimer :
    start.params.fx07Mode = .skipIfEqual ∧ ({ Config.defaults with fx07Mode := .load } : Params).fx07Mode = .load := by decide
theorem witness_KeySkipsCompareTheWholeRegister :
    (∃ k, ({ start with key := some 15 }.setReg 3 15).key = some k ∧
      (({ start with key := some 15 }.setReg 3 15).reg 3).toNat = k.toNat) ∧
    (¬ ∃ k, start.key = some k ∧ (start.reg 3).toNat = k.toNat) ∧ 15 < (start.setReg 3 16 |>.reg 3).toNat :=
  ⟨⟨15, rfl, by decide⟩, (by rintro ⟨k, hk, -⟩; cases hk), by decide⟩
theorem witness_KeyWaitStartsInTheNextCycle :
    let s := code 0xFF0A { start with key := some 15 }
    s.schedule = [] ∧ s.Running ∧ FetchAccepts s.pc ∧ decode (wordAtPc s) = .ok (.ldVxK 15) ∧ s.key = some 15 :=
  ⟨(ready_spec (by decide)).1, (ready_spec (by decide)).2.1, (ready_spec (by decide)).2.2, by decide, rfl⟩
/-- Each clause: I, a byte of memory (the last there is), a slot of the stack and SP do change. -/
theorem witness_IndexMemoryAndStackHaveFewWriters :
    (∃ t, exec (.ldI 5) start = .next t ∧ (t.i != start.i) = true) ∧
    (∃ t, exec (.dump 15) ((start.setI 0xFF0).setReg 15 7) = .next t ∧ (t.byteAt 0xFFF != start.byteAt 0xFFF) = true) ∧
    (∃ t, exec (.call 0x300) start = .next t ∧ (t.stack != start.stack && t.sp != start.sp) = true) :=
  ⟨answers_next (by decide), answers_next (by decide), answers_next (by decide)⟩
theorem witness_DisplayIsWrittenByClsAndDrwAlone :
    (∃ t, exec .cls start = .next t ∧ (t.clearFlag != start.clearFlag) = true) ∧
    (∃ t, exec (.drw 0 0 1) start = .next t ∧ (t.fb != start.fb && t.drawFlag != start.drawFlag) = true) :=
  ⟨answers_next (by decide), answers_next (by decide)⟩
theorem witness_FlagWritersAreThoseOfTheRule :
    (∃ t, exec (.subReg 0 1) start = .next t ∧ (t.reg 15 != start.reg 15) = true) ∧
    (∃ t, exec (.fill 15) start = .next t ∧ (t.reg 15 != start.reg 15) = true) ∧
    (∃ t, exec (.addImm 15 1) start = .next t ∧ (t.reg 15 != start.reg 15) = true) :=
  ⟨answers_next (by decide), answers_next (by decide), answers_next (by decide)⟩
theorem witness_NoInstructionWritesTheHostsCells :
    (∃ t, exec (.ldVxK 3) start = .next t ∧ (t.wait != start.wait) = true) ∧
    (∃ t, exec (.ldDtVx 3) (start.setReg 3 1) = .next t ∧ (t.dt != start.dt) = true) :=
  ⟨answers_next (by decide), answers_next (by decide)⟩

end Sys2Proof.Tests
end

section
/-! PROOFS. The block's host ports (10_state.md R47 to R52): the cells they show and write, and the rows the row port
answers. -/

namespace Sys2Proof.Machine

/-! ### The row port -/

/-- R48: a request for a row of the screen is answered, on a loaded block. -/
theorem rowPort_of_lt {s : State} {r : Nat} (hl : s.loaded = true) (h : r < 32) : rowPort r s = some s.fb[r] := by
  rw [rowPort, dif_pos h, if_pos hl]

/-- R48: a request past the last row is refused, on any block. -/
theorem rowPort_of_ge (s : State) {r : Nat} (h : 32 ≤ r) : rowPort r s = none := dif_neg h.not_gt

/-- Settles O53: a row below 32 is answered by FB[r], whose bit 63 - c is by definition the pixel of column c (R32). -/
theorem rowPortAnswersTheRow : Obligations.RowPortAnswersTheRow := by
  intro s r hl
  constructor
  · intro h
    exact ⟨s.fb[r], rowPort_of_lt hl h, fun _ _ => rfl⟩
  · exact rowPort_of_ge s

/-! ### The outputs and the one-cell inputs -/

/-- Settles O28: each output is its cell by definition; each input is the schedule's first event, and does what `perform`
does for it on a loaded block. -/
theorem hostPortsWriteTheirCells : Obligations.HostPortsWriteTheirCells := by
  intro s rest hl
  refine ⟨rfl, rfl, rfl, rfl, ?setKey, ?ackDraw, ?ackClear, ?stopTimer⟩
  case setKey => exact fun k hs => (step_event hs).trans (perform_setKey k hl)
  case ackDraw => exact fun hs => (step_event hs).trans (perform_ackDraw hl)
  case ackClear => exact fun hs => (step_event hs).trans (perform_ackClear hl)
  case stopTimer => exact fun hs => (step_event hs).trans (perform_stopTimer hl)

end Sys2Proof.Machine
end

section
/-! PROOFS. The fields of a word (30_encoding.md R91), the words the decoder rejects (R104), and the cycle that fetches one of
them or a SYS word. -/

namespace Sys2Proof

/-! ### The fields as digits of the word's number -/

/-- The field of `k` bits from bit `i` on, as a number. -/
theorem extractLsb'_toNat_eq_div_mod (w : Word) (i k : Nat) : (w.extractLsb' i k).toNat = w.toNat / 2 ^ i % 2 ^ k := by
  rw [BitVec.extractLsb'_toNat, Nat.shiftRight_eq_div_pow]

/-- Settles O6: each field is a run of bits, hence a quotient and a remainder; nothing stands above the family nibble. -/
theorem fieldsAreTheBitsOfTheWord : Obligations.FieldsAreTheBitsOfTheWord := by
  intro w
  have field := extractLsb'_toNat_eq_div_mod w
  have family : w.toNat / 2 ^ 12 % 2 ^ 4 = w.toNat / 2 ^ 12 := Nat.mod_eq_of_lt (by omega)
  have low (k : Nat) : (w.extractLsb' 0 k).toNat = w.toNat % 2 ^ k := by rw [field, Nat.pow_zero, Nat.div_one]
  exact ⟨(field 12 4).trans family, field 8 4, field 4 4, low 4, low 8, low 12⟩

/-! ### The rejected words, family by family -/

/-- A test that answers an instruction when it succeeds rejects nothing itself. -/
theorem ite_ok_rejects_iff {c : Prop} [Decidable c] {i : Instr} {rest : Except Unmapped Instr} :
    (∃ u, (if c then .ok i else rest) = .error u) ↔ ¬c ∧ ∃ u, rest = .error u := by
  by_cases hc : c <;> simp [hc]

theorem decodeFamily8_rejects_iff (w : Word) :
    (∃ u, decodeFamily8 w = .error u) ↔ nField w ∈ [0x8, 0x9, 0xA, 0xB, 0xC, 0xD, 0xF] := by
  rcases nibble_cases (nField w) with h | h | h | h | h | h | h | h | h | h | h | h | h | h | h | h <;>
    simp [decodeFamily8, h]

theorem decodeFamilyE_rejects_iff (w : Word) :
    (∃ u, decodeFamilyE w = .error u) ↔ kkField w ∉ [0x9E, 0xA1] := by
  simp [decodeFamilyE, ite_ok_rejects_iff]

theorem decodeFamilyF_rejects_iff (w : Word) :
    (∃ u, decodeFamilyF w = .error u) ↔ kkField w ∉ [0x07, 0x0A, 0x15, 0x18, 0x1E, 0x29, 0x33, 0x55, 0x65] := by
  simp [decodeFamilyF, ite_ok_rejects_iff]

/-- Every word of the thirteen other families is an instruction (R94, R95, R97). -/
theorem decode_ok_of_family_ne {w : Word} (h8 : famField w ≠ 0x8#4) (hE : famField w ≠ 0xE#4)
    (hF : famField w ≠ 0xF#4) : ∃ i, decode w = .ok i := by
  rcases nibble_cases (famField w) with h | h | h | h | h | h | h | h | h | h | h | h | h | h | h | h
  · exact ⟨_, decode_family0 h⟩
  · exact ⟨_, decode_family1 h⟩
  · exact ⟨_, decode_family2 h⟩
  · exact ⟨_, decode_family3 h⟩
  · exact ⟨_, decode_family4 h⟩
  · exact ⟨_, decode_family5 h⟩
  · exact ⟨_, decode_family6 h⟩
  · exact ⟨_, decode_family7 h⟩
  · exact absurd h h8
  · exact ⟨_, decode_family9 h⟩
  · exact ⟨_, decode_familyA h⟩
  · exact ⟨_, decode_familyB h⟩
  · exact ⟨_, decode_familyC h⟩
  · exact ⟨_, decode_familyD h⟩
  · exact absurd h hE
  · exact absurd h hF

/-- R104: the three groups of unmapped words are all there are. -/
theorem decode_rejects_iff (w : Word) :
    (∃ u, decode w = .error u) ↔
      ((famField w = 0x8 ∧ nField w ∈ [0x8, 0x9, 0xA, 0xB, 0xC, 0xD, 0xF]) ∨
       (famField w = 0xE ∧ kkField w ∉ [0x9E, 0xA1]) ∨
       (famField w = 0xF ∧ kkField w ∉ [0x07, 0x0A, 0x15, 0x18, 0x1E, 0x29, 0x33, 0x55, 0x65])) := by
  by_cases h8 : famField w = 0x8#4
  · rw [decode_family8 h8, decodeFamily8_rejects_iff]
    simp [h8]
  by_cases hE : famField w = 0xE#4
  · rw [decode_familyE hE, decodeFamilyE_rejects_iff]
    simp [hE]
  by_cases hF : famField w = 0xF#4
  · rw [decode_familyF hF, decodeFamilyF_rejects_iff]
    simp [hF]
  obtain ⟨i, hi⟩ := decode_ok_of_family_ne h8 hE hF
  simp [hi, h8, hE, hF]

namespace Machine

/-! ### The cycle of a no-op -/

/-- R150: SYS has no effect. -/
theorem exec_sys (nnn : Addr) (s : State) : exec (.sys nnn) s = .next s := rfl

/-- A running block has recorded no fault, and the cycle's steps before dispatch record none (R125, R127, R128). -/
theorem State.Running.inCycle_fault {s : State} (h : s.Running) : s.inCycle.fault = none := by
  obtain ⟨-, hfault, -⟩ := h
  exact hfault

/-- Step 6 does nothing for an unmapped word, and nothing for a SYS word (R104, R150). -/
theorem execute_noop {w : Word} (h : (∃ u, decode w = .error u) ∨ ∃ nnn, decode w = .ok (.sys nnn)) (s : State) :
    execute w s = .next s := by
  obtain ⟨u, hu⟩ | ⟨nnn, hsys⟩ := h
  · exact execute_error hu s
  · exact (execute_ok hsys s).trans (exec_sys nnn s)

/-- A step of a running block with nothing scheduled, at a PC the fetch accepts: step 6 on the in-cycle state, committed
(R120, R131). -/
theorem step_of_fetchAccepts {s : State} (hs : s.schedule = []) (hr : s.Running) (ha : FetchAccepts s.pc) :
    step s = commit s (execute s.opcode s.inCycle) := by
  rw [step_empty hs, cycle_running hr, runCycle, (fetchFault_none_iff s.pc).2 ha, State.fetched_eq_inCycle]

/-- Settles O9: the rejected words are those of the families 8, E and F that no row lists; such a word and a SYS word do
nothing in step 6, so the cycle's commit keeps the in-cycle state, whose FAULT is still none. -/
theorem unmappedWordsRunAsNoOps : Obligations.UnmappedWordsRunAsNoOps := by
  refine ⟨decode_rejects_iff, fun s hs hr ha hw => ?_⟩
  calc step s = commit s (execute s.opcode s.inCycle) := step_of_fetchAccepts hs hr ha
    _ = commit s (.next s.inCycle) := by rw [State.opcode_eq, execute_noop hw]
    _ = .next s.inCycle := commit_ok s hr.inCycle_fault

end Machine
end Sys2Proof
end

section
/-! PROOFS. The execution agent by its states (40_cycle.md R121 to R126, R132): what a step does to a halted, a waiting and a
running block, and which of these states it leaves. -/

namespace Sys2Proof.Machine

/-! ### A halted block (R121) -/

theorem step_halted {s : State} (hs : s.schedule = []) (h : s.Halted) : step s = .next s :=
  (step_empty hs).trans (cycle_halted h)

/-- The cells that a halted block's neighbours can still write, and what is left of their schedule; the rest of `t`, the
fault record among it, is that of `s`. -/
def OnlyAgentsCells (s t : State) : Prop :=
  t = { s with dt := t.dt, key := t.key, drawFlag := t.drawFlag, clearFlag := t.clearFlag, timerRun := t.timerRun,
               schedule := t.schedule }

theorem OnlyAgentsCells.trans {s t u : State} (hst : OnlyAgentsCells s t) (htu : OnlyAgentsCells t u) :
    OnlyAgentsCells s u :=
  Eq.trans htu (by rw [hst])

theorem OnlyAgentsCells.halted {s t : State} (hst : OnlyAgentsCells s t) (h : s.Halted) : t.Halted := by
  rw [hst]
  exact h

/-- The schedule holds no load that fits. -/
def NoLoadFits (events : List Event) : Prop :=
  ∀ rom seed slots, Event.load rom seed slots ∈ events → 0xD00 < rom.length

theorem NoLoadFits.of_subset {events part : List Event} (h : NoLoadFits events) (hsub : part ⊆ events) :
    NoLoadFits part :=
  fun rom seed slots hm => h rom seed slots (hsub hm)

/-- On a halted block every event but a load that fits keeps the execution agent's state, and no event touches the schedule. -/
theorem perform_halted {s : State} {e : Event} (h : s.Halted) (he : NoLoadFits [e]) :
    ∃ t, perform e s = .next t ∧ OnlyAgentsCells s t ∧ t.schedule = s.schedule := by
  have hl := h.1
  cases e with
  | cycle => exact ⟨s, cycle_halted h, rfl, rfl⟩
  | tick => exact ⟨tick s, perform_tick hl, by rw [tick_frame s]; rfl, by rw [tick_frame s]⟩
  | setKey k => exact ⟨_, perform_setKey k hl, rfl, rfl⟩
  | ackDraw => exact ⟨_, perform_ackDraw hl, rfl, rfl⟩
  | ackClear => exact ⟨_, perform_ackClear hl, rfl, rfl⟩
  | stopTimer => exact ⟨_, perform_stopTimer hl, rfl, rfl⟩
  | load rom seed slots =>
    exact ⟨s, perform_load_tooLarge seed slots (he rom seed slots List.mem_cons_self), rfl, rfl⟩

/-- A step of a halted block under such a schedule leaves another: what induction over a run needs. -/
theorem step_keepsHalted {s : State} (h : s.Halted) (hl : NoLoadFits s.schedule) :
    ∃ t, step s = .next t ∧ OnlyAgentsCells s t ∧ NoLoadFits t.schedule := by
  cases hs : s.schedule with
  | nil => exact ⟨s, step_halted hs h, rfl, hl⟩
  | cons e rest =>
    rw [hs] at hl
    have head : NoLoadFits [e] := hl.of_subset (by simp)
    have tail : NoLoadFits rest := hl.of_subset (List.subset_cons_self e rest)
    obtain ⟨t, ht, hcells, hsched⟩ := perform_halted (s := { s with schedule := rest }) h head
    exact ⟨t, (step_event hs).trans ht, hcells, hsched ▸ tail⟩

/-- Settles O14, by induction on the number of steps: a halted block's step keeps it halted, with its execution state, under
a schedule that again holds no load that fits. -/
theorem haltedBlockStaysUntilALoad : Obligations.HaltedBlockStaysUntilALoad := by
  refine ⟨fun s h hs => step_halted hs h, fun n => ?_⟩
  induction n with
  | zero =>
    intro s t _ _ ht
    cases ht
    rfl
  | succ n ih =>
    intro s t h hl ht
    obtain ⟨u, hu, hcells, hlu⟩ := step_keepsHalted h hl
    rw [run_next n hu] at ht
    exact hcells.trans (ih u t (hcells.halted h) hlu ht)

/-! ### A waiting block (R123, R124) -/

theorem step_waiting {s : State} {x : RegIx} (hs : s.schedule = []) (h : s.Waiting x) :
    step s = .next (blockedCycle x s) :=
  (step_empty hs).trans (cycle_waiting h)

/-- Settles O15, by induction on the number of steps: a blocked cycle with no key answers the state it started from. -/
theorem blockedCyclesChangeNothing : Obligations.BlockedCyclesChangeNothing := by
  intro s x h hk hs n
  have hstep : step s = .next s := by rw [step_waiting hs h, blockedCycle_none x hk]
  induction n with
  | zero => exact run_zero s
  | succ n ih => exact (run_next n hstep).trans ih

/-- Settles O16: the blocked cycle that finds a key is one register write and the end of the wait. -/
theorem keyResolvesTheWait : Obligations.KeyResolvesTheWait := by
  intro s x k h hk hs
  refine ⟨(s.setReg x (keyByte k)).setWait none, ?step, ?target, ?others, rfl⟩
  case step => rw [step_waiting hs h, blockedCycle_some x hk]
  case target => exact (congrArg BitVec.toNat (s.reg_setReg_same x _)).trans (keyByte_toNat k)
  case others => exact fun j hj => s.reg_setReg_ne _ hj

/-! ### A running block: the fetch checks (R126) -/

/-- A PC that the fetch refuses: the step records the code and nothing else changes. -/
theorem step_of_fetchFault {s : State} {c : FaultCode} (hs : s.schedule = []) (hr : s.Running)
    (hc : fetchFault s.pc = some c) : step s = .next (s.setFault (some ⟨c, s.pc, 0, 0⟩)) := by
  rw [step_empty hs, cycle_running hr, runCycle, hc]
  rfl

/-- No instruction raises a fault of the fetch (R310). -/
theorem Faulted.not_fetch_code {s t : State} {i : Instr} {r : FaultRecord} (h : Faulted s i t) (hr : t.fault = some r) :
    r.code ≠ .pcOutOfRange ∧ r.code ≠ .pcMisaligned := by
  cases h <;> (cases hr; simp)

/-- A cycle whose fetch accepts the PC records no fault of the fetch: it records none, or an instruction's. -/
theorem Ran.not_fetch_code {s t : State} {r : FaultRecord} (h : Ran s t) (hs : s.Running) (ha : FetchAccepts s.pc)
    (hr : t.fault = some r) : r.code ≠ .pcOutOfRange ∧ r.code ≠ .pcMisaligned := by
  cases h with
  | fetchFault c hc => rw [(fetchFault_none_iff s.pc).2 ha] at hc; cases hc
  | unmapped u _ _ => rw [hs.inCycle_fault] at hr; cases hr
  | effect i t _ _ he => rw [he.fault_eq, hs.inCycle_fault] at hr; cases hr
  | faulted i t _ _ he => exact he.not_fetch_code hr

/-- Settles O17: the two refusals are those of `fetchFault`; past them only an instruction can record a fault. -/
theorem fetchChecksThePc : Obligations.FetchChecksThePc := by
  intro s hs hr
  refine ⟨?range, ?odd, ?accepted⟩
  case range => exact fun h => step_of_fetchFault hs hr (fetchFault_range h)
  case odd => exact fun hlow hhigh hodd => step_of_fetchFault hs hr (fetchFault_odd hlow hhigh hodd)
  case accepted =>
    intro ha
    obtain ⟨t, ht, hran⟩ := step_running hs hr
    exact ⟨t, ht, fun r => hran.not_fetch_code hr ha⟩

/-! ### A running block: the state its cycle leaves (R132) -/

/-- What no instruction's effect touches: the parameters, CUR_OP, RNG, FAULT, the host's KEY and TIMER_RUN, and the model's
own two fields. -/
theorem Effect.frame {s t : State} {i : Instr} (h : Effect s i t) :
    t = { s with mem := t.mem, v := t.v, i := t.i, pc := t.pc, stack := t.stack, sp := t.sp, wait := t.wait,
                 drawFlag := t.drawFlag, clearFlag := t.clearFlag, fb := t.fb, dt := t.dt } := by
  cases h with
  | regs _ _ _ ht => rw [ht]
  | pc _ _ _ ht _ => rw [ht]
  | index _ _ _ ht => rw [ht]
  | drawn _ _ _ _ ht => rw [ht]
  | store => rw [State.writeBytes_frame]
  | _ => rfl

theorem Effect.loaded_eq {s t : State} {i : Instr} (h : Effect s i t) : t.loaded = s.loaded := by
  rw [h.frame]

/-- Fx0A alone starts a wait, and for its own register. -/
theorem Effect.wait_eq_some_iff {s t : State} {i : Instr} (h : Effect s i t) (hw : s.wait = none) (x : RegIx) :
    t.wait = some x ↔ i = .ldVxK x := by
  have other (ht : t.wait = s.wait) (hi : ∀ y, i ≠ .ldVxK y) : t.wait = some x ↔ i = .ldVxK x := by
    simp [ht, hw, hi x]
  cases h with
  | wait y => simp
  | nothing _ hi => exact other rfl (by rintro y rfl; simp at hi)
  | regs _ _ hi ht => exact other (by rw [ht]) (by rintro y rfl; cases hi)
  | pc _ _ hi ht _ => exact other (by rw [ht]) (by rintro y rfl; cases hi)
  | index _ _ hi ht => exact other (by rw [ht]) (by rintro y rfl; simp at hi)
  | store _ _ _ hi => exact other (by rw [State.writeBytes_frame]) (by rintro y rfl; simp at hi)
  | drawn _ _ _ _ ht => exact other (by rw [ht]) (by rintro y ⟨⟩)
  | _ => exact other rfl (by rintro y ⟨⟩)

/-- A running block is left waiting by Fx0A and by no other effect. -/
theorem Effect.waiting_iff {s t : State} {i : Instr} (h : Effect s i t) (hs : s.Running) (x : RegIx) :
    t.Waiting x ↔ i = .ldVxK x := by
  obtain ⟨hl, hf, hw⟩ := hs
  rw [← h.wait_eq_some_iff hw x, State.Waiting, h.loaded_eq, h.fault_eq]
  simp only [hl, hf, true_and]

/-- Fx0A raises no fault. -/
theorem Faulted.ne_ldVxK {s t : State} {i : Instr} (h : Faulted s i t) (x : RegIx) : i ≠ .ldVxK x := by
  rintro rfl
  cases h with
  | bounds _ hi => simp at hi

theorem State.Halted.not_waiting {s : State} (h : s.Halted) (x : RegIx) : ¬ s.Waiting x := by
  rintro ⟨-, hf, -⟩
  exact h.2 hf

/-- A loaded block is in one of the three states. -/
theorem State.agentState_of_loaded {s : State} (h : s.loaded = true) : s.Running ∨ s.Halted ∨ ∃ x, s.Waiting x := by
  by_cases hf : s.fault = none
  · cases hw : s.wait with
    | none => exact .inl ⟨h, hf, hw⟩
    | some x => exact .inr (.inr ⟨x, h, hf, hw⟩)
  · exact .inr (.inl ⟨h, hf⟩)

theorem Ran.loaded_eq {s t : State} (h : Ran s t) : t.loaded = s.loaded := by
  cases h with
  | effect _ _ _ _ he => exact he.loaded_eq
  | _ => rfl

/-- A non-blocked cycle ends in a wait for V[x] exactly when it fetched Fx0A for that register. -/
theorem Ran.waiting_iff {s t : State} (h : Ran s t) (hs : s.Running) (x : RegIx) :
    t.Waiting x ↔ FetchAccepts s.pc ∧ decode s.opcode = .ok (.ldVxK x) := by
  cases h with
  | fetchFault c hc =>
    have halted : (s.setFault (some ⟨c, s.pc, 0, 0⟩)).Halted := ⟨hs.1, Option.some_ne_none _⟩
    have refused : ¬ FetchAccepts s.pc := by rw [← fetchFault_none_iff, hc]; exact Option.some_ne_none _
    exact iff_of_false (halted.not_waiting x) fun ha => refused ha.1
  | unmapped u ha hd =>
    obtain ⟨-, -, hw⟩ := hs
    exact iff_of_false (fun h => by simp [State.Waiting, State.inCycle, hw] at h) (by simp [hd])
  | effect i _ ha hd he =>
    have running : s.inCycle.Running := hs
    rw [he.waiting_iff running x]
    simp [ha, hd]
  | faulted i t ha hd he =>
    have halted : { s with fault := t.fault }.Halted := ⟨hs.1, Option.isSome_iff_ne_none.1 he.isSome⟩
    exact iff_of_false (halted.not_waiting x) (by simp [hd, he.ne_ldVxK x])

/-- A blocked cycle goes on waiting with no key, and ends the wait with one. -/
theorem blockedCycle_agentState {s : State} {x : RegIx} (h : s.Waiting x) :
    (s.key = none → (blockedCycle x s).Waiting x) ∧ (s.key ≠ none → (blockedCycle x s).Running) := by
  constructor
  · intro hk
    rwa [blockedCycle_none x hk]
  · intro hk
    obtain ⟨k, hk⟩ := Option.ne_none_iff_exists'.1 hk
    obtain ⟨hl, hf, -⟩ := h
    rw [blockedCycle_some x hk]
    exact ⟨hl, hf, rfl⟩

/-- Settles O21, one clause for each state of the agent and one for the load. -/
theorem executionAgentStateMachine : Obligations.ExecutionAgentStateMachine := by
  refine ⟨?unloaded, ?running, ?waiting, ?halted, ?load⟩
  case unloaded => exact fun s hl hs => (step_empty hs).trans (cycle_neverLoaded hl)
  case running =>
    intro s hr hs
    obtain ⟨t, ht, hran⟩ := step_running hs hr
    exact ⟨t, ht, State.agentState_of_loaded (hran.loaded_eq.trans hr.1), hran.waiting_iff hr⟩
  case waiting => exact fun s x hw hs => ⟨_, step_waiting hs hw, blockedCycle_agentState hw⟩
  case halted => exact fun s hh hs => ⟨s, step_halted hs hh, hh⟩
  case load =>
    intro s rom seed slots rest hs
    rw [step_event hs]
    by_cases hfit : rom.length ≤ 0xD00
    · exact ⟨_, perform_load_fits seed slots hfit, fun _ => ⟨rfl, rfl, rfl⟩, fun h => absurd hfit h.not_ge⟩
    · exact ⟨_, perform_load_tooLarge seed slots (not_le.1 hfit), fun h => absurd h hfit, fun _ => rfl⟩

end Sys2Proof.Machine
end

section
/-! PROOFS. Control flow (41_control_flow.md): which words are its instructions, what each of them does to PC, SP and the
stack, and the cycle that fetches an instruction without effect. The lemmas on words and on skips serve the other rows of the
opcode map too. -/

namespace Sys2Proof.Machine

/-! ### Words decoded by the bits their row fixes (R93) -/

/-- A row that the family nibble decides. -/
theorem decodesAs_of_family {mask p : Word} {f : Word → Instr} (hm : famField mask = 0xF#4)
    (hf : ∀ {w : Word}, famField w = famField p → decode w = .ok (f w)) : DecodesAs mask p f :=
  fun _ hw => hf (famField_of_mask hm rfl hw)

/-- A row that the family nibble and the low byte decide. -/
theorem decodesAs_of_family_of_kk {mask p : Word} {f : Word → Instr} (hm : famField mask = 0xF#4)
    (hkk : kkField mask = 0xFF#8)
    (hf : ∀ {w : Word}, famField w = famField p → kkField w = kkField p → decode w = .ok (f w)) : DecodesAs mask p f :=
  fun _ hw => hf (famField_of_mask hm rfl hw) (kkField_of_mask hkk rfl hw)

theorem decode_ret {w : Word} (hf : famField w = 0x0#4) (hk : kkField w = 0xEE#8) : decode w = .ok .ret := by
  rw [decode_family0 hf, decodeFamily0, hk]
  rfl

theorem decode_sys {w : Word} (hf : famField w = 0x0#4) (hcls : kkField w ≠ 0xE0#8) (hret : kkField w ≠ 0xEE#8) :
    decode w = .ok (.sys (nnnField w)) := by
  rw [decode_family0 hf, decodeFamily0, if_neg hcls, if_neg hret]

theorem decode_ldStVx {w : Word} (hf : famField w = 0xF#4) (hk : kkField w = 0x18#8) :
    decode w = .ok (.ldStVx (xField w)) := by
  rw [decode_familyF hf, decodeFamilyF, hk]
  rfl

/-- R94: a word 0nnn is SYS unless its low byte, as the mask 0x00FF leaves it, is that of CLS or of RET. -/
theorem decode_sys_of_mask {w : Word} (hf : w &&& 0xF000 = 0x0000) (hcls : w &&& 0x00FF ≠ 0x00E0)
    (hret : w &&& 0x00FF ≠ 0x00EE) : decode w = .ok (.sys (nnnField w)) :=
  decode_sys (famField_of_mask (by decide) (by decide) hf) (mt (kkField_eq_iff w 0x00E0 (by decide)).1 hcls)
    (mt (kkField_eq_iff w 0x00EE (by decide)).1 hret)

/-! ### Instructions without effect (R150, R286) -/

/-- R286: LD ST, Vx has no effect. -/
theorem exec_ldStVx (x : RegIx) (s : State) : exec (.ldStVx x) s = .next s := rfl

/-- A cycle whose instruction has no effect: the RNG advance, the fetch and the PC increment are all it does. -/
theorem step_of_exec_nothing {s : State} {i : Instr} (hs : s.schedule = []) (hr : s.Running) (ha : FetchAccepts s.pc)
    (hd : decode s.opcode = .ok i) (hi : ∀ u, exec i u = .next u) : step s = .next s.inCycle :=
  calc step s = commit s (execute s.opcode s.inCycle) := step_of_fetchAccepts hs hr ha
    _ = commit s (.next s.inCycle) := by rw [execute_ok hd, hi]
    _ = .next s.inCycle := commit_ok s hr.inCycle_fault

/-- Settles O29: both instructions answer the state they are given, so their cycle leaves the in-cycle state. -/
theorem sysAndSoundDoNothing : Obligations.SysAndSoundDoNothing := by
  refine ⟨fun w => decode_sys_of_mask, decodesAs_of_family_of_kk (by decide) (by decide) decode_ldStVx, exec_sys,
    exec_ldStVx, ?cycle⟩
  case cycle =>
    rintro s hs hr ha (⟨nnn, hsys⟩ | ⟨x, hsound⟩)
    · exact step_of_exec_nothing hs hr ha hsys (exec_sys nnn)
    · exact step_of_exec_nothing hs hr ha hsound (exec_ldStVx x)

/-! ### Jumps (R152, R158) -/

theorem onlyPc_setPc (s : State) (target : Word) : OnlyPc s (s.setPc target) := ⟨rfl, sameBytes_of_eq rfl rfl⟩

theorem exec_jp (nnn : Addr) (s : State) : exec (.jp nnn) s = .next (s.setPc (zext16 nnn)) := rfl

theorem exec_jpV0 (nnn : Addr) (s : State) :
    exec (.jpV0 nnn) s = .next (s.setPc (jumpOffsetTarget nnn (s.reg 0))) := rfl

/-- Settles O31: each jump is one write of PC, and neither of the two targets wraps. -/
theorem jumpsSetThePc : Obligations.JumpsSetThePc := by
  refine ⟨decodesAs_of_family (by decide) decode_family1, decodesAs_of_family (by decide) decode_familyB,
    fun nnn s => ⟨?jump, ?offset⟩⟩
  case jump => exact ⟨_, exec_jp nnn s, zext16_toNat nnn, onlyPc_setPc s _⟩
  case offset => exact ⟨_, exec_jpV0 nnn s, jumpOffsetTarget_toNat nnn (s.reg 0), onlyPc_setPc s _⟩

/-! ### Skips (R154 to R157, R159) -/

theorem onlyPc_skipIf (s : State) (c : Bool) : OnlyPc s (s.skipIf c) := by
  cases c with
  | false => exact ⟨rfl, sameBytes_of_eq rfl rfl⟩
  | true => exact onlyPc_setPc s (s.pc + 2)

/-- What a skip does, whatever instruction asks for it: PC is 2 further exactly when the condition holds. -/
theorem exists_next_of_skipIf {s : State} {i : Instr} {c : Bool} {p : Prop} [Decidable p]
    (hi : exec i s = .next (s.skipIf c)) (hc : c = true ↔ p) :
    ∃ t, exec i s = .next t ∧ t.pc = (if p then s.pc + 2 else s.pc) ∧ OnlyPc s t :=
  ⟨s.skipIf c, hi, by simp only [State.skipIf_pc, hc], onlyPc_skipIf s c⟩

theorem exec_seImm (x : RegIx) (kk : Byte) (s : State) :
    exec (.seImm x kk) s = .next (s.skipIf (s.reg x == kk)) := rfl

theorem exec_sneImm (x : RegIx) (kk : Byte) (s : State) :
    exec (.sneImm x kk) s = .next (s.skipIf (s.reg x != kk)) := rfl

theorem exec_seReg (x y : RegIx) (n : Nibble) (s : State) :
    exec (.seReg x y n) s = .next (s.skipIf (s.reg x == s.reg y)) := rfl

theorem exec_sneReg (x y : RegIx) (n : Nibble) (s : State) :
    exec (.sneReg x y n) s = .next (s.skipIf (s.reg x != s.reg y)) := rfl

/-- Settles O34: the two instructions are skips, on V[x] = kk and on V[x] ≠ kk. -/
theorem byteSkipsCompareTheRegister : Obligations.ByteSkipsCompareTheRegister := by
  refine ⟨decodesAs_of_family (by decide) decode_family3, decodesAs_of_family (by decide) decode_family4,
    fun x kk s => ⟨?equal, ?differ⟩⟩
  case equal => exact exists_next_of_skipIf (exec_seImm x kk s) beq_iff_eq
  case differ => exact exists_next_of_skipIf (exec_sneImm x kk s) bne_iff_ne

/-- Settles O35: the two instructions are skips, on V[x] = V[y] and on V[x] ≠ V[y]; neither equation reads n. -/
theorem registerSkipsCompareTheRegisters : Obligations.RegisterSkipsCompareTheRegisters := by
  refine ⟨decodesAs_of_family (by decide) decode_family5, decodesAs_of_family (by decide) decode_family9,
    fun x y n s => ⟨?equal, ?differ⟩⟩
  case equal => exact exists_next_of_skipIf (exec_seReg x y n s) beq_iff_eq
  case differ => exact exists_next_of_skipIf (exec_sneReg x y n s) bne_iff_ne

/-! ### The call stack (R151, R153) -/

/-- A raised fault in the words of the statements: the record, and nothing else changed. -/
theorem raise_eq_recordOf (code : FaultCode) (addr : Word) (s : State) :
    raise code addr s = .next { s with fault := some (s.recordOf code addr) } := rfl

/-- RET with a return address on the stack pops it; the slot keeps it. -/
theorem exec_ret_of_pos {s : State} (h : 0 < s.sp.val) :
    exec .ret s = .next { s with sp := ⟨s.sp.val - 1, by have := s.sp.isLt; omega⟩,
                                 pc := s.stack[s.sp.val - 1]'(by have := s.sp.isLt; omega) } :=
  dif_neg h.ne'

/-- RET with an empty stack raises StackUnderflow (R313). -/
theorem exec_ret_of_eq_zero {s : State} (h : s.sp = 0) : exec .ret s = raise .stackUnderflow 0 s :=
  dif_pos (congrArg Fin.val h)

/-- CALL with a free slot pushes PC, the address after the CALL (R128). -/
theorem exec_call_of_lt (nnn : Addr) {s : State} (h : s.sp.val < 24) :
    exec (.call nnn) s = .next { s with stack := s.stack.set s.sp.val s.pc, sp := ⟨s.sp.val + 1, by omega⟩,
                                        pc := zext16 nnn } :=
  dif_pos h

/-- CALL with 24 return addresses on the stack raises StackOverflow (R312). -/
theorem exec_call_of_eq_24 (nnn : Addr) {s : State} (h : s.sp = 24) :
    exec (.call nnn) s = raise .stackOverflow 0 s :=
  dif_neg (by rw [h]; decide)

/-- Settles O30: RET's two equations, one for each side of the test of SP. -/
theorem retPopsTheReturnAddress : Obligations.RetPopsTheReturnAddress := by
  refine ⟨decodesAs_of_family_of_kk (by decide) (by decide) decode_ret, fun s => ⟨fun h => ?pop, fun h => ?underflow⟩⟩
  case pop => exact ⟨_, exec_ret_of_pos h, rfl, rfl, rfl, sameBytes_of_eq rfl rfl⟩
  case underflow => exact (exec_ret_of_eq_zero h).trans (raise_eq_recordOf _ _ s)

/-- Settles O32: CALL's two equations, one for each side of the test of SP; the push is one `Vector.set`, which the slot
written and every other slot read back. -/
theorem callPushesTheReturnAddress : Obligations.CallPushesTheReturnAddress := by
  refine ⟨decodesAs_of_family (by decide) decode_family2, fun nnn s => ⟨fun h => ?push, fun h => ?overflow⟩⟩
  case push =>
    refine ⟨_, exec_call_of_lt nnn h, ?slot, ?others, rfl, zext16_toNat nnn, rfl, sameBytes_of_eq rfl rfl⟩
    case slot => exact Vector.getElem_set_self h
    case others => exact fun j hj hne => Vector.getElem_set_ne h hj hne.symm
  case overflow => exact (exec_call_of_eq_24 nnn h).trans (raise_eq_recordOf _ _ s)

end Sys2Proof.Machine
end

section
/-! PROOFS. ALU and registers (42_alu.md): which words are its instructions, what each of them writes to V[x] and to VF, and
the cycle that runs RND. -/

namespace Sys2Proof.Machine

/-! ### Words of family 8 (R96) -/

/-- A row of family 8, which the low nibble decides. -/
theorem decodesAs_of_family8 {p : Word} {f : Word → Instr} (hp : famField p = 0x8#4)
    (hf : ∀ {w : Word}, nField w = nField p → decodeFamily8 w = .ok (f w)) : DecodesAs 0xF00F p f := by
  intro w hw
  rw [decode_family8 (famField_of_mask (by decide) hp hw)]
  exact hf (nField_of_mask (by decide) rfl hw)

section Rows
variable {w : Word}

theorem decodeFamily8_ldReg (h : nField w = 0x0#4) : decodeFamily8 w = .ok (.ldReg (xField w) (yField w)) := by
  rw [decodeFamily8, h]; rfl
theorem decodeFamily8_orReg (h : nField w = 0x1#4) : decodeFamily8 w = .ok (.orReg (xField w) (yField w)) := by
  rw [decodeFamily8, h]; rfl
theorem decodeFamily8_andReg (h : nField w = 0x2#4) : decodeFamily8 w = .ok (.andReg (xField w) (yField w)) := by
  rw [decodeFamily8, h]; rfl
theorem decodeFamily8_xorReg (h : nField w = 0x3#4) : decodeFamily8 w = .ok (.xorReg (xField w) (yField w)) := by
  rw [decodeFamily8, h]; rfl
theorem decodeFamily8_addReg (h : nField w = 0x4#4) : decodeFamily8 w = .ok (.addReg (xField w) (yField w)) := by
  rw [decodeFamily8, h]; rfl
theorem decodeFamily8_subReg (h : nField w = 0x5#4) : decodeFamily8 w = .ok (.subReg (xField w) (yField w)) := by
  rw [decodeFamily8, h]; rfl
theorem decodeFamily8_shrReg (h : nField w = 0x6#4) : decodeFamily8 w = .ok (.shrReg (xField w) (yField w)) := by
  rw [decodeFamily8, h]; rfl
theorem decodeFamily8_subnReg (h : nField w = 0x7#4) : decodeFamily8 w = .ok (.subnReg (xField w) (yField w)) := by
  rw [decodeFamily8, h]; rfl
theorem decodeFamily8_shlReg (h : nField w = 0xE#4) : decodeFamily8 w = .ok (.shlReg (xField w) (yField w)) := by
  rw [decodeFamily8, h]; rfl

end Rows

/-! ### Each instruction as one register write, or as one of a register and the flag -/

section Meanings
variable (x y : RegIx) (kk : Byte) (s : State)

theorem exec_ldImm : exec (.ldImm x kk) s = .next (s.setReg x kk) := rfl
theorem exec_addImm : exec (.addImm x kk) s = .next (s.setReg x (s.reg x + kk)) := rfl
theorem exec_ldReg : exec (.ldReg x y) s = .next (s.setReg x (s.reg y)) := rfl
theorem exec_orReg : exec (.orReg x y) s = .next (s.setReg x (s.reg x ||| s.reg y)) := rfl
theorem exec_andReg : exec (.andReg x y) s = .next (s.setReg x (s.reg x &&& s.reg y)) := rfl
theorem exec_xorReg : exec (.xorReg x y) s = .next (s.setReg x (s.reg x ^^^ s.reg y)) := rfl
theorem exec_rnd : exec (.rnd x kk) s = .next (s.setReg x (s.rng &&& kk)) := rfl
theorem exec_addReg : exec (.addReg x y) s =
    .next (s.setRegFlag x (s.reg x + s.reg y) (carry (s.reg x) (s.reg y))) := rfl
theorem exec_subReg : exec (.subReg x y) s =
    .next (s.setRegFlag x (s.reg x - s.reg y) (notBorrow (s.reg x) (s.reg y))) := rfl
theorem exec_subnReg : exec (.subnReg x y) s =
    .next (s.setRegFlag x (s.reg y - s.reg x) (notBorrow (s.reg y) (s.reg x))) := rfl
theorem exec_shrReg : exec (.shrReg x y) s = .next (s.setRegFlag x (s.reg y >>> 1) (outRight (s.reg y))) := rfl
theorem exec_shlReg : exec (.shlReg x y) s = .next (s.setRegFlag x (s.reg y <<< 1) (outLeft (s.reg y))) := rfl

end Meanings

/-! ### What a register write leaves unchanged -/

theorem setReg_frame (s : State) (x : RegIx) (b : Byte) :
    SameRegsBut x s (s.setReg x b) ∧ OnlyRegs s (s.setReg x b) :=
  ⟨fun _ hj => s.reg_setReg_ne b hj, rfl, sameBytes_of_eq rfl rfl⟩

theorem setRegFlag_frame (s : State) (x : RegIx) (b : Byte) (c : Bool) :
    SameRegsButFlag x s (s.setRegFlag x b c) ∧ OnlyRegs s (s.setRegFlag x b c) :=
  ⟨fun _ hj hf => s.reg_setRegFlag_ne b c hj hf, rfl, sameBytes_of_eq rfl rfl⟩

/-! ### Instructions without a flag (R180 to R185, R191) -/

/-- Settles O36: each of the three is one write of V[x]; the addition of bytes is modulo 256. -/
theorem loadsAndAddImmediateWriteOneRegister : Obligations.LoadsAndAddImmediateWriteOneRegister := by
  refine ⟨decodesAs_of_family (by decide) decode_family6, decodesAs_of_family (by decide) decode_family7,
    decodesAs_of_family8 (by decide) decodeFamily8_ldReg, fun x y kk s => ⟨?load, ?add, ?copy⟩⟩
  case load => exact ⟨_, exec_ldImm x kk s, s.reg_setReg_same x _, setReg_frame s x _⟩
  case add =>
    refine ⟨_, exec_addImm x kk s, ?_, setReg_frame s x _⟩
    rw [State.reg_setReg_same]
    exact BitVec.toNat_add _ _
  case copy => exact ⟨_, exec_ldReg x y s, s.reg_setReg_same x _, setReg_frame s x _⟩

/-- What an instruction does that writes one register with a byte known bit by bit. -/
theorem exists_next_of_setReg_bits {s : State} {i : Instr} {x : RegIx} {b : Byte} {bit : Nat → Bool}
    (hi : exec i s = .next (s.setReg x b)) (hb : ∀ k, b.getLsbD k = bit k) :
    ∃ t, exec i s = .next t ∧ (∀ k, k < 8 → (t.reg x).getLsbD k = bit k) ∧ SameRegsBut x s t ∧ OnlyRegs s t :=
  ⟨_, hi, fun k _ => by rw [State.reg_setReg_same, hb], setReg_frame s x b⟩

/-- Settles O37: each of the three is one write of V[x], whose bits are those of the operands combined. -/
theorem logicOperationsWriteOneRegister : Obligations.LogicOperationsWriteOneRegister := by
  refine ⟨decodesAs_of_family8 (by decide) decodeFamily8_orReg, decodesAs_of_family8 (by decide) decodeFamily8_andReg,
    decodesAs_of_family8 (by decide) decodeFamily8_xorReg, fun x y s => ⟨?or, ?and, ?xor⟩⟩
  case or => exact exists_next_of_setReg_bits (exec_orReg x y s) fun _ => BitVec.getLsbD_or
  case and => exact exists_next_of_setReg_bits (exec_andReg x y s) fun _ => BitVec.getLsbD_and
  case xor => exact exists_next_of_setReg_bits (exec_xorReg x y s) fun _ => BitVec.getLsbD_xor

/-- A step of a running block whose instruction answers `t` without a fault: the commit keeps `t` (R129, R131). -/
theorem step_of_exec_next {s t : State} {i : Instr} (hs : s.schedule = []) (hr : s.Running) (ha : FetchAccepts s.pc)
    (hd : decode s.opcode = .ok i) (hi : exec i s.inCycle = .next t) (ht : t.fault = none) : step s = .next t :=
  calc step s = commit s (execute s.opcode s.inCycle) := step_of_fetchAccepts hs hr ha
    _ = commit s (.next t) := by rw [execute_ok hd, hi]
    _ = .next t := commit_ok s ht

/-- Settles O41: RND is one write of V[x]; in its cycle it sees the generator already advanced, and writes no other field,
so the generator stays advanced once. -/
theorem rndMasksTheAdvancedGenerator : Obligations.RndMasksTheAdvancedGenerator := by
  refine ⟨decodesAs_of_family (by decide) decode_familyC, fun x kk s => ?instruction, fun x kk s hs hr ha hd => ?cycle⟩
  case instruction => exact exists_next_of_setReg_bits (exec_rnd x kk s) fun _ => BitVec.getLsbD_and
  case cycle =>
    have hstep := step_of_exec_next hs hr ha hd (exec_rnd x kk s.inCycle) hr.inCycle_fault
    exact ⟨_, hstep, s.inCycle.reg_setReg_same x _, rfl, rfl⟩

/-! ### Instructions with a flag (R186 to R190, R193) -/

/-- A flag decided by a comparison of integers. -/
theorem flagByte_decide (p : Prop) [Decidable p] : flagByte (decide p) = if p then 1 else 0 := by
  simp only [flagByte, decide_eq_true_eq]

/-- Settles O38: the sum goes to V[x] and the carry, written last, to VF. -/
theorem addRegisterSetsCarry : Obligations.AddRegisterSetsCarry := by
  refine ⟨decodesAs_of_family8 (by decide) decodeFamily8_addReg, fun x y s =>
    ⟨_, exec_addReg x y s, fun hx => ?sum, ?flag, setRegFlag_frame s x _ _⟩⟩
  case sum =>
    rw [s.reg_setRegFlag_same _ _ hx]
    exact BitVec.toNat_add _ _
  case flag => exact (s.reg_setRegFlag_vf x _ _).trans (flagByte_decide _)

/-- The subtraction of bytes is that of the integers, modulo 256. -/
theorem byte_sub_toNat (a b : Byte) : ((a - b).toNat : Int) = ((a.toNat : Int) - b.toNat) % 256 := by
  rw [BitVec.toNat_sub]
  omega

/-- What a subtraction does, whichever operand is the minuend: the difference, and VF 1 exactly when there is no borrow. -/
theorem exists_next_of_sub {s : State} {i : Instr} {x : RegIx} {a b : Byte}
    (hi : exec i s = .next (s.setRegFlag x (a - b) (notBorrow a b))) :
    ∃ t, exec i s = .next t ∧ (x ≠ 15 → ((t.reg x).toNat : Int) = ((a.toNat : Int) - b.toNat) % 256) ∧
      t.reg 15 = (if b.toNat ≤ a.toNat then 1 else 0) ∧ SameRegsButFlag x s t ∧ OnlyRegs s t := by
  refine ⟨_, hi, fun hx => ?difference, ?flag, setRegFlag_frame s x _ _⟩
  case difference => rw [s.reg_setRegFlag_same _ _ hx, byte_sub_toNat]
  case flag => exact (s.reg_setRegFlag_vf x _ _).trans (flagByte_decide _)

/-- Settles O39: the two are subtractions, with V[x] and with V[y] as the minuend. -/
theorem subtractionsSetNotBorrow : Obligations.SubtractionsSetNotBorrow :=
  ⟨decodesAs_of_family8 (by decide) decodeFamily8_subReg, decodesAs_of_family8 (by decide) decodeFamily8_subnReg,
    fun x y s => ⟨exists_next_of_sub (exec_subReg x y s), exists_next_of_sub (exec_subnReg x y s)⟩⟩

/-- What a shift does, whichever its direction: the result, and in VF the bit shifted out, both known as numbers. -/
theorem exists_next_of_shift {s : State} {i : Instr} {x : RegIx} {b : Byte} {c : Bool} {result out : Nat}
    (hi : exec i s = .next (s.setRegFlag x b c)) (hb : b.toNat = result) (hc : c.toNat = out) :
    ∃ t, exec i s = .next t ∧ (x ≠ 15 → (t.reg x).toNat = result) ∧ (t.reg 15).toNat = out ∧
      SameRegsButFlag x s t ∧ OnlyRegs s t := by
  refine ⟨_, hi, fun hx => ?result, ?flag, setRegFlag_frame s x _ _⟩
  case result => rw [s.reg_setRegFlag_same _ _ hx, hb]
  case flag => rw [State.reg_setRegFlag_vf, flagByte_toNat, hc]

theorem byte_ushiftRight_one_toNat (b : Byte) : (b >>> 1).toNat = b.toNat / 2 := by
  rw [BitVec.toNat_ushiftRight, Nat.shiftRight_one]

theorem byte_shiftLeft_one_toNat (b : Byte) : (b <<< 1).toNat = b.toNat * 2 % 256 := by
  rw [BitVec.toNat_shiftLeft, Nat.shiftLeft_eq]

/-- Settles O40: the two are shifts of V[y], by one place to the right and to the left. -/
theorem shiftsReadVyAndWriteVx : Obligations.ShiftsReadVyAndWriteVx := by
  refine ⟨decodesAs_of_family8 (by decide) decodeFamily8_shrReg, decodesAs_of_family8 (by decide) decodeFamily8_shlReg,
    fun x y s => ⟨?right, ?left⟩⟩
  case right =>
    exact exists_next_of_shift (exec_shrReg x y s) (byte_ushiftRight_one_toNat (s.reg y)) (outRight_toNat (s.reg y))
  case left =>
    exact exists_next_of_shift (exec_shlReg x y s) (byte_shiftLeft_one_toNat (s.reg y)) (outLeft_toNat (s.reg y))

end Sys2Proof.Machine
end

section
/-! PROOFS. The index register and the memory instructions (43_index_memory.md): which words are its instructions, what each
of them writes to I, to MEM or to V, and the one bounds check that the three memory instructions share (R65, R226). -/

namespace Sys2Proof.Machine

/-! ### Words of family F (R99) -/

section Rows
variable {w : Word}

theorem decode_addI (hf : famField w = 0xF#4) (hk : kkField w = 0x1E#8) : decode w = .ok (.addI (xField w)) := by
  rw [decode_familyF hf, decodeFamilyF, hk]; rfl
theorem decode_ldF (hf : famField w = 0xF#4) (hk : kkField w = 0x29#8) : decode w = .ok (.ldF (xField w)) := by
  rw [decode_familyF hf, decodeFamilyF, hk]; rfl
theorem decode_ldB (hf : famField w = 0xF#4) (hk : kkField w = 0x33#8) : decode w = .ok (.ldB (xField w)) := by
  rw [decode_familyF hf, decodeFamilyF, hk]; rfl
theorem decode_dump (hf : famField w = 0xF#4) (hk : kkField w = 0x55#8) : decode w = .ok (.dump (xField w)) := by
  rw [decode_familyF hf, decodeFamilyF, hk]; rfl
theorem decode_fill (hf : famField w = 0xF#4) (hk : kkField w = 0x65#8) : decode w = .ok (.fill (xField w)) := by
  rw [decode_familyF hf, decodeFamilyF, hk]; rfl

end Rows

/-! ### Each instruction as one write of I, or as one checked run of bytes from I -/

section Meanings
variable (nnn : Addr) (x : RegIx) (s : State)

theorem exec_ldI : exec (.ldI nnn) s = .next (s.setI (zext16 nnn)) := rfl
theorem exec_addI : exec (.addI x) s = .next (s.setI (s.i + zextByte (s.reg x))) := rfl
theorem exec_ldF : exec (.ldF x) s = .next (s.setI (glyphAddress (s.reg x))) := rfl
theorem exec_ldB : exec (.ldB x) s = s.withSpan 3 (s.writeBytes s.i.toNat (bcdDigits (s.reg x))) := rfl
theorem exec_dump : exec (.dump x) s = s.withSpan (x.val + 1) (s.writeBytes s.i.toNat (s.regsUpTo x)) := rfl
theorem exec_fill :
    exec (.fill x) s = s.withSpan (x.val + 1) (s.setRegs 0 (s.readBytes s.i.toNat (x.val + 1))) := rfl

end Meanings

/-! ### Writing I (R220 to R222) -/

theorem onlyIndex_setI (s : State) (w : Word) : OnlyIndex s (s.setI w) := ⟨rfl, sameBytes_of_eq rfl rfl⟩

/-- What an instruction does that writes I with a word known as a number. -/
theorem exists_next_of_setI {s : State} {i : Instr} {w : Word} {value : Nat} (hi : exec i s = .next (s.setI w))
    (hw : w.toNat = value) : ∃ t, exec i s = .next t ∧ t.i.toNat = value ∧ OnlyIndex s t :=
  ⟨_, hi, hw, onlyIndex_setI s w⟩

/-- The addition of a register to a word is modulo 65536. -/
theorem add_zextByte_toNat (w : Word) (b : Byte) : (w + zextByte b).toNat = (w.toNat + b.toNat) % 65536 := by
  rw [BitVec.toNat_add, zextByte_toNat]

/-- Settles O43: each of the three is one write of I. -/
theorem indexInstructionsWriteTheIndex : Obligations.IndexInstructionsWriteTheIndex := by
  refine ⟨decodesAs_of_family (by decide) decode_familyA, decodesAs_of_family_of_kk (by decide) (by decide) decode_addI,
    decodesAs_of_family_of_kk (by decide) (by decide) decode_ldF, fun nnn x s => ⟨?load, ?add, ?glyph⟩⟩
  case load => exact exists_next_of_setI (exec_ldI nnn s) (zext16_toNat nnn)
  case add => exact exists_next_of_setI (exec_addI x s) (add_zextByte_toNat s.i (s.reg x))
  case glyph => exact exists_next_of_setI (exec_ldF x s) (glyphAddress_toNat (s.reg x))

/-! ### The bounds check of a run that ends `n` bytes past I (R65, R226) -/

/-- The last byte of the run exists: the instruction goes on. -/
theorem withSpan_of_lt (s : State) {n : Nat} (go : State) (h : s.i.toNat + n < 0x1000) :
    s.withSpan (n + 1) go = .next go :=
  s.withSpan_ok go (.inr h)

/-- The last byte of the run does not exist: the record of BoundsViolation in the words of the statements, and nothing else
changed. -/
theorem withSpan_of_ge (s : State) {n : Nat} (go : State) (h : 0x1000 ≤ s.i.toNat + n) :
    s.withSpan (n + 1) go = .next { s with fault := some (s.recordOf .boundsViolation s.badAddr) } := by
  rw [s.withSpan_bad go n.succ_ne_zero (Nat.lt_succ_of_le h), raise_eq_recordOf, s.lowestBadAddr_eq, State.badAddr]

/-! ### Storing a run of bytes (R223, R224) -/

/-- What an instruction does that stores a run of bytes from I, whatever the bytes, when the run fits. -/
theorem exists_next_of_store {s : State} {i : Instr} {n : Nat} {bs : List Byte}
    (hi : exec i s = s.withSpan (n + 1) (s.writeBytes s.i.toNat bs)) (hlen : bs.length = n + 1)
    (hfit : s.i.toNat + n < 0x1000) :
    ∃ t, exec i s = .next t ∧
      (Memory.wf s.params.font s.mem = true → ∀ k b, bs[k]? = some b → t.byteAt (s.i.toNat + k) = b) ∧
      SameBytesOutside s.i.toNat (n + 1) s t ∧ t = { s with mem := t.mem } := by
  refine ⟨_, hi.trans (withSpan_of_lt s _ hfit), fun hw k b hb => ?inside, ?outside, s.writeBytes_frame _ bs⟩
  case inside =>
    obtain ⟨hk, rfl⟩ := List.getElem?_eq_some_iff.1 hb
    exact s.byteAt_writeBytes_inside _ k bs hw (by rw [hlen]; exact hfit) hk
  case outside => exact fun c hc => s.byteAt_writeBytes_outside _ c bs (by rwa [hlen])

/-- Settles O44: LD B stores the three digits as one run, each of them small enough for a byte. -/
theorem bcdWritesThreeDigits : Obligations.BcdWritesThreeDigits := by
  refine ⟨decodesAs_of_family_of_kk (by decide) (by decide) decode_ldB,
    fun x s => ⟨fun hfit => ?store, fun hbad => ?bounds⟩⟩
  case store =>
    obtain ⟨t, ht, hread, hframe⟩ := exists_next_of_store (exec_ldB x s) (bcdDigits_length _) hfit
    refine ⟨t, ht, fun hw => ?digits, hframe⟩
    have digit (k d : Nat) (hd : d < 256) (hk : (bcdDigits (s.reg x))[k]? = some (BitVec.ofNat 8 d)) :
        (t.byteAt (s.i.toNat + k)).toNat = d := by
      rw [hread hw k _ hk, BitVec.toNat_ofNat, Nat.mod_eq_of_lt hd]
    exact ⟨digit 0 _ (by omega) rfl, digit 1 _ (by omega) rfl, digit 2 _ (by omega) rfl⟩
  case bounds => exact (exec_ldB x s).trans (withSpan_of_ge s _ hbad)

/-- V[k] is byte k of the registers up to V[x]. -/
theorem regsUpTo_getElem?_of_le (s : State) {x k : RegIx} (h : k ≤ x) : (s.regsUpTo x)[k.val]? = some (s.reg k) := by
  have hk : k.val < (s.regsUpTo x).length := by rw [s.regsUpTo_length]; exact Nat.lt_succ_of_le h
  rw [List.getElem?_eq_getElem hk, s.regsUpTo_getElem]

/-- Settles O45: the dump stores the registers up to V[x] as one run. -/
theorem dumpStoresRegistersUpToX : Obligations.DumpStoresRegistersUpToX := by
  refine ⟨decodesAs_of_family_of_kk (by decide) (by decide) decode_dump,
    fun x s => ⟨fun hfit => ?store, fun hbad => ?bounds⟩⟩
  case store =>
    obtain ⟨t, ht, hread, hframe⟩ := exists_next_of_store (exec_dump x s) (s.regsUpTo_length x) hfit
    exact ⟨t, ht, fun hw k hk => hread hw k _ (regsUpTo_getElem?_of_le s hk), hframe⟩
  case bounds => exact (exec_dump x s).trans (withSpan_of_ge s _ hbad)

/-! ### Loading a run of bytes (R225) -/

theorem onlyRegs_setRegs (s : State) (k : Nat) (bs : List Byte) : OnlyRegs s (s.setRegs k bs) :=
  ⟨s.setRegs_frame k bs, sameBytes_of_eq (by rw [s.setRegs_frame]) (by rw [s.setRegs_frame])⟩

/-- A run of bytes from `a` loaded into V[0] to V[x], seen from every register. -/
theorem reg_setRegs_readBytes (s : State) (a : Nat) (x k : RegIx) :
    (s.setRegs 0 (s.readBytes a (x.val + 1))).reg k = if k ≤ x then s.byteAt (a + k.val) else s.reg k := by
  have hlen : 0 + (s.readBytes a (x.val + 1)).length ≤ 16 := by rw [s.readBytes_length]; omega
  rw [s.reg_setRegs 0 _ k hlen, if_pos k.val.zero_le, Nat.sub_zero, s.readBytes_getD]
  simp only [Nat.lt_succ_iff, Fin.le_def]

/-- Settles O46: the load writes the registers up to V[x] from one run, and nothing else. -/
theorem fillLoadsRegistersUpToX : Obligations.FillLoadsRegistersUpToX := by
  refine ⟨decodesAs_of_family_of_kk (by decide) (by decide) decode_fill,
    fun x s => ⟨fun hfit => ?load, fun hbad => ?bounds⟩⟩
  case load =>
    exact ⟨_, (exec_fill x s).trans (withSpan_of_lt s _ hfit), reg_setRegs_readBytes s _ x, onlyRegs_setRegs s 0 _⟩
  case bounds => exact (exec_fill x s).trans (withSpan_of_ge s _ hbad)

end Sys2Proof.Machine
end

section
/-! PROOFS. The display (44_display.md): CLS blanks the screen; DRW XORs its sprite pixel by pixel, both ways round the edges,
and reports whether a lit pixel met one. -/

namespace Sys2Proof.Machine

/-! ### CLS (R250, R254) -/

theorem decode_cls {w : Word} (hf : famField w = 0x0#4) (hk : kkField w = 0xE0#8) : decode w = .ok .cls := by
  rw [decode_family0 hf, decodeFamily0, hk]
  rfl

theorem exec_cls (s : State) : exec .cls s = .next s.clear := rfl

theorem clear_fb_getElem (s : State) (r : Fin 32) : s.clear.fb[r.val] = 0 := Vector.getElem_replicate _

/-- Settles O49: CLS is the engine's clear(), which writes the rows and CLEAR_FLAG and nothing else. -/
theorem clsBlanksTheScreen : Obligations.ClsBlanksTheScreen :=
  ⟨decodesAs_of_family_of_kk (by decide) (by decide) decode_cls,
    fun s => ⟨s.clear, exec_cls s, clear_fb_getElem s, rfl, rfl, sameBytes_of_eq rfl rfl⟩⟩

/-! ### The sprite's grid and its row words (R251, R256, R257) -/

/-- A pixel of the sprite's grid is the bit of the row word that the draw loop makes of the sprite's byte for that row. -/
theorem spritePixel_eq_spriteWord (s : State) (xpos ypos n : Nat) {c : Nat} (hc : c < 64) (r : Fin 32) :
    s.spritePixel xpos ypos n c r = (decide (rowOffset ypos r < n) &&
      (spriteWord (s.byteAt (s.i.toNat + rowOffset ypos r)) (xpos % 64)).getLsbD (63 - c)) := by
  rw [spriteWord_column _ _ _ (Nat.mod_lt _ (by decide)) hc, ← Bool.and_assoc]
  rfl

/-- A lit pixel of a row meets a pixel of the sprite exactly when the sprite covers the row and its word there overlaps it. -/
theorem exists_pixel_and_spritePixel_iff (s : State) (xpos ypos n : Nat) (r : Fin 32) :
    (∃ c, c < 64 ∧ s.pixel c r = true ∧ s.spritePixel xpos ypos n c r = true) ↔
      rowOffset ypos r < n ∧
        overlaps s.fb[r.val] (spriteWord (s.byteAt (s.i.toNat + rowOffset ypos r)) (xpos % 64)) = true := by
  rw [overlaps_iff]
  constructor
  · rintro ⟨c, hc, hlit, hsprite⟩
    rw [spritePixel_eq_spriteWord s xpos ypos n hc, Bool.and_eq_true, decide_eq_true_eq] at hsprite
    exact ⟨hsprite.1, c, hc, hlit, hsprite.2⟩
  · rintro ⟨hcover, c, hc, hlit, hword⟩
    refine ⟨c, hc, hlit, ?_⟩
    rw [spritePixel_eq_spriteWord s xpos ypos n hc, hword, decide_eq_true hcover]
    rfl

/-! ### draw() with a sprite read from memory -/

section Draw
variable (s : State) (xpos ypos : Nat) {n : Nat} (hn : n ≤ 32)
include hn

/-- draw() XORs each pixel with the sprite's pixel that lands on it (R251). -/
theorem pixel_draw_readBytes {c : Nat} (hc : c < 64) (r : Fin 32) :
    (s.draw (xpos % 64) ypos (s.readBytes s.i.toNat n)).1.pixel c r =
      (s.pixel c r ^^ s.spritePixel xpos ypos n c r) := by
  have hlen : 0 + (s.readBytes s.i.toNat n).length ≤ 32 := by simpa using hn
  have hrow := drawRows_row (xpos % 64) ypos 0 _ s.fb false r hlen
  rw [spritePixel_eq_spriteWord s xpos ypos n hc]
  rw [s.readBytes_length, Nat.sub_zero, s.readBytes_getD] at hrow
  simp only [State.pixel, State.draw, hrow]
  by_cases hcover : rowOffset ypos r < n
  · simp [hcover]
  · simp [hcover]

/-- draw() reports a collision exactly when a lit pixel met a pixel of the sprite (R251). -/
theorem draw_readBytes_collides_iff :
    (s.draw (xpos % 64) ypos (s.readBytes s.i.toNat n)).2 = true ↔
      ∃ c, c < 64 ∧ ∃ r : Fin 32, s.pixel c r = true ∧ s.spritePixel xpos ypos n c r = true := by
  have hlen : 0 + (s.readBytes s.i.toNat n).length ≤ 32 := by simpa using hn
  rw [State.draw, drawRows_coll _ _ _ _ _ _ hlen]
  simp only [Bool.false_eq_true, false_or, s.readBytes_length, s.readBytes_getElem, Nat.zero_add]
  constructor
  · rintro ⟨k, hk, hmeet⟩
    have hoff : rowOffset ypos (spriteRow ypos k) = k := ((spriteRow_eq_iff ypos k _ (by omega)).1 rfl).symm
    obtain ⟨c, hc, hpixels⟩ :=
      (exists_pixel_and_spritePixel_iff s xpos ypos n (spriteRow ypos k)).2 (by rw [hoff]; exact ⟨hk, hmeet⟩)
    exact ⟨c, hc, spriteRow ypos k, hpixels⟩
  · rintro ⟨c, hc, r, hpixels⟩
    obtain ⟨hcover, hmeet⟩ := (exists_pixel_and_spritePixel_iff s xpos ypos n r).1 ⟨c, hc, hpixels⟩
    exact ⟨rowOffset ypos r, hcover, by simpa only [spriteRow_rowOffset] using hmeet⟩

end Draw

/-! ### DRW (R255) -/

theorem exec_drw (x y : RegIx) (n : Nibble) (s : State) :
    exec (.drw x y n) s = s.withSpan n.toNat (drawSprite x y n s) := rfl

/-- A flag that says whether `p` holds, as VF holds it: 1 or 0 (R251). -/
theorem flagByte_cases {c : Bool} {p : Prop} (h : c = true ↔ p) : (flagByte c = 1 ∧ p) ∨ (flagByte c = 0 ∧ ¬ p) := by
  cases c with
  | true => exact .inl ⟨rfl, h.1 rfl⟩
  | false => exact .inr ⟨rfl, fun hp => Bool.false_ne_true (h.2 hp)⟩

/-- Settles O50: a sprite that lies in memory is drawn by the engine's draw() from byte I on, and VF takes the collision
bit last; any other raises BoundsViolation before it draws. -/
theorem drwXorsTheSpritePixels : Obligations.DrwXorsTheSpritePixels := by
  refine ⟨decodesAs_of_family (by decide) decode_familyD, fun x y n s => ⟨fun hfit => ?draw, fun h0 hbad => ?bounds⟩⟩
  case draw =>
    have hn : n.toNat ≤ 32 := by omega
    have hspan : n.toNat = 0 ∨ s.i.toNat + n.toNat ≤ 0x1000 := by
      rcases hfit with rfl | hlast
      · exact .inl rfl
      · omega
    refine ⟨drawSprite x y n s, (exec_drw x y n s).trans (s.withSpan_ok _ hspan),
      fun c hc r => pixel_draw_readBytes s _ _ hn hc r, ?flag, rfl, fun j hj => State.reg_setReg_ne _ _ hj, rfl,
      sameBytes_of_eq rfl rfl⟩
    case flag =>
      rw [drawSprite, State.reg_setReg_same]
      exact flagByte_cases (draw_readBytes_collides_iff s _ _ hn)
  case bounds =>
    obtain ⟨m, hm⟩ := Nat.exists_eq_succ_of_ne_zero (BitVec.toNat_ne.1 h0)
    rw [exec_drw, hm]
    exact withSpan_of_ge s _ (by omega)

end Sys2Proof.Machine
end

section
/-! PROOFS. Timer and keys (45_timer_keys.md): which words are its instructions, what Fx07 and Fx15 do with DT, and when the
two key skips skip. -/

namespace Sys2Proof.Machine

/-! ### Words of families E and F (R98, R99) -/

section Rows
variable {w : Word}

theorem decode_skp (hf : famField w = 0xE#4) (hk : kkField w = 0x9E#8) : decode w = .ok (.skp (xField w)) := by
  rw [decode_familyE hf, decodeFamilyE, hk]; rfl
theorem decode_sknp (hf : famField w = 0xE#4) (hk : kkField w = 0xA1#8) : decode w = .ok (.sknp (xField w)) := by
  rw [decode_familyE hf, decodeFamilyE, hk]; rfl
theorem decode_ldVxDt (hf : famField w = 0xF#4) (hk : kkField w = 0x07#8) : decode w = .ok (.ldVxDt (xField w)) := by
  rw [decode_familyF hf, decodeFamilyF, hk]; rfl
theorem decode_ldDtVx (hf : famField w = 0xF#4) (hk : kkField w = 0x15#8) : decode w = .ok (.ldDtVx (xField w)) := by
  rw [decode_familyF hf, decodeFamilyF, hk]; rfl

end Rows

/-! ### The delay timer (R280 to R282) -/

/-- R280: Fx07 in the default mode. -/
theorem exec_ldVxDt_of_skipIfEqual (x : RegIx) {s : State} (h : s.params.fx07Mode = .skipIfEqual) :
    exec (.ldVxDt x) s = .next (s.skipIf (s.reg x == s.dt)) := by
  rw [exec, execLdVxDt, h]

/-- R281: Fx07 in the other mode. -/
theorem exec_ldVxDt_of_load (x : RegIx) {s : State} (h : s.params.fx07Mode = .load) :
    exec (.ldVxDt x) s = .next (s.setReg x s.dt) := by
  rw [exec, execLdVxDt, h]

theorem exec_ldDtVx (x : RegIx) (s : State) : exec (.ldDtVx x) s = .next (s.setDt (s.reg x)) := rfl

/-- Settles O54: Fx07 is a skip on V[x] = DT in one mode and a write of V[x] in the other; Fx15 is one write of DT. -/
theorem delayInstructionsUseTheTimer : Obligations.DelayInstructionsUseTheTimer := by
  refine ⟨decodesAs_of_family_of_kk (by decide) (by decide) decode_ldVxDt,
    decodesAs_of_family_of_kk (by decide) (by decide) decode_ldDtVx,
    fun x s => ⟨fun hmode => ?skip, fun hmode => ?load, ?set⟩⟩
  case skip => exact exists_next_of_skipIf (exec_ldVxDt_of_skipIfEqual x hmode) beq_iff_eq
  case load => exact ⟨_, exec_ldVxDt_of_load x hmode, s.reg_setReg_same x _, setReg_frame s x _⟩
  case set => exact ⟨_, exec_ldDtVx x s, s.setDt_dt _, rfl, sameBytes_of_eq rfl rfl⟩

/-! ### The key skips (R283, R284, R287) -/

theorem exec_skp (x : RegIx) (s : State) : exec (.skp x) s = .next (s.skipIf (s.pressed (s.reg x))) := rfl

theorem exec_sknp (x : RegIx) (s : State) : exec (.sknp x) s = .next (s.skipIf (!s.pressed (s.reg x))) := rfl

/-- R287: a key is at most 15, so a byte above 15 is never pressed. -/
theorem not_pressed_of_gt (s : State) {b : Byte} (h : 15 < b.toNat) : ¬ s.pressed b = true := by
  intro hpressed
  obtain ⟨k, -, hbk⟩ := (s.pressed_iff b).1 hpressed
  have hk : k.toNat < 16 := k.isLt
  omega

/-- A skip on a condition that holds, beside the skip on its negation. -/
theorem skipIf_pc_of_true (s : State) {c : Bool} (h : c = true) :
    (s.skipIf c).pc = s.pc + 2 ∧ (s.skipIf (!c)).pc = s.pc := by
  subst h
  exact ⟨rfl, rfl⟩

/-- A skip on a condition that fails, beside the skip on its negation. -/
theorem skipIf_pc_of_not_true (s : State) {c : Bool} (h : ¬ c = true) :
    (s.skipIf c).pc = s.pc ∧ (s.skipIf (!c)).pc = s.pc + 2 := by
  obtain rfl : c = false := Bool.eq_false_iff.2 h
  exact ⟨rfl, rfl⟩

/-- Settles O55: SKP is the skip on "pressed" and SKNP the skip on its negation, so each clause says whether the key counts
as pressed. -/
theorem keySkipsCompareTheWholeRegister : Obligations.KeySkipsCompareTheWholeRegister := by
  refine ⟨decodesAs_of_family_of_kk (by decide) (by decide) decode_skp,
    decodesAs_of_family_of_kk (by decide) (by decide) decode_sknp, fun x s => ⟨_, _, exec_skp x s, exec_sknp x s,
      onlyPc_skipIf s _, onlyPc_skipIf s _, fun hkey => ?pressed, fun hkey => ?notPressed, fun hbig => ?above15⟩⟩
  case pressed => exact skipIf_pc_of_true s ((s.pressed_iff _).2 hkey)
  case notPressed => exact skipIf_pc_of_not_true s (mt (s.pressed_iff _).1 hkey)
  case above15 => exact skipIf_pc_of_not_true s (not_pressed_of_gt s hbig)

end Sys2Proof.Machine
end

section
/-! PROOFS. Exceptions and the agents' events (60_exceptions.md): the faults of a cycle and the records they leave, the load
port's refusal, and one tick of the timer agent. -/

namespace Sys2Proof.Machine

/-! ### Precise faults (R310, R319) -/

/-- The record of an instruction's fault is that of its code; the address is the code's own, which BoundsViolation alone has
(R310). -/
theorem Faulted.record_eq {s t : State} {i : Instr} {r : FaultRecord} (h : Faulted s i t) (hr : t.fault = some r) :
    r = s.recordOf r.code (if r.code = .boundsViolation then s.badAddr else 0x0000) := by
  cases h with
  | bounds =>
    cases hr
    rw [if_pos rfl, s.lowestBadAddr_eq]
    rfl
  | overflow => cases hr; rfl
  | underflow => cases hr; rfl

/-- The record of a fault raised inside a cycle names the instruction that the cycle fetched (R128, R131): PC - 2 is its
address, CUR_OP its word, and I, which the fetch does not touch, gives the address field. -/
theorem State.recordOf_inCycle (s : State) (code : FaultCode) (addr : Word) :
    s.inCycle.recordOf code addr = { code := code, pc := s.pc, opcode := s.opcode, addr := addr } := by
  rw [State.recordOf, s.inCycle_pc_sub]
  rfl

/-- A non-blocked cycle that records a fault discards all but the record, which is the fetch's or that of the instruction it
decoded (R131). -/
theorem Ran.fault_cases {s t : State} {r : FaultRecord} (h : Ran s t) (hs : s.Running) (hr : t.fault = some r) :
    t = { s with fault := some r } ∧
      ((Machine.fetchFault s.pc = some r.code ∧ r = { code := r.code, pc := s.pc, opcode := 0x0000, addr := 0x0000 }) ∨
        ∃ i u, decode s.opcode = .ok i ∧ Faulted s.inCycle i u ∧ u.fault = some r) := by
  cases h with
  | fetchFault c hc =>
    cases hr
    exact ⟨rfl, .inl ⟨hc, rfl⟩⟩
  | unmapped => rw [hs.inCycle_fault] at hr; cases hr
  | effect _ _ _ _ he => rw [he.fault_eq, hs.inCycle_fault] at hr; cases hr
  | faulted i u _ hd he => exact ⟨congrArg (fun f => { s with fault := f }) hr, .inr ⟨i, u, hd, he, hr⟩⟩

/-- Settles O18: the record is the fetch's, with the PC it refused and no opcode, or that of an instruction, whose codes are
not the fetch's. -/
theorem faultsArePrecise : Obligations.FaultsArePrecise := by
  intro s t r hs hrun ht hr
  obtain ⟨hframe, ⟨hfetch, hrec⟩ | ⟨i, u, -, hfault, hu⟩⟩ := (step_ran hs hrun ht).fault_cases hrun hr
  · refine ⟨hframe, ?_⟩
    rw [hrec]
    rcases fetchFault_some hfetch with ⟨hcode, -⟩ | ⟨hcode, -⟩ <;> simp [hcode]
  · have hrec := hfault.record_eq hu
    obtain ⟨hrange, hodd⟩ := hfault.not_fetch_code hu
    rw [State.recordOf_inCycle] at hrec
    refine ⟨hframe, congrArg FaultRecord.pc hrec, ?opcode, congrArg FaultRecord.addr hrec⟩
    case opcode =>
      rw [if_neg (not_or.2 ⟨hrange, hodd⟩)]
      exact congrArg FaultRecord.opcode hrec

/-! ### The load port's refusal (R316, R351) -/

theorem loadPort_tooLarge (s : State) {rom : List Byte} (seed : Byte) (slots : Vector Word 24) (h : 0xD00 < rom.length) :
    loadPort rom seed slots s = (.romTooLarge, s) := if_pos h

/-- Settles O2: the port's answer, and the event that performs such a load. -/
theorem oversizedRomLoadsNothing : Obligations.OversizedRomLoadsNothing := by
  intro s rom seed slots rest h
  exact ⟨loadPort_tooLarge s seed slots h, fun hs => (step_event hs).trans (perform_load_tooLarge seed slots h)⟩

/-! ### One tick (R325) -/

/-- Settles O24: a loaded block performs the tick whatever its execution agent does, and the tick writes DT alone. -/
theorem tickDecrementsTheTimer : Obligations.TickDecrementsTheTimer := by
  intro s rest hl hs
  have hstep : step s = .next (tick { s with schedule := rest }) := (step_event hs).trans (perform_tick hl)
  exact ⟨_, hstep, tick_dt_toNat _, tick_frame _⟩

end Sys2Proof.Machine
end

section
/-! PROOFS. The invariant of a run (10_state.md R24, R25, R36; 40_cycle.md R126, R132; 41_control_flow.md R161): every load
that fits establishes it, and every step of every agent keeps it. -/

namespace Sys2Proof.Machine

/-! ### The load and a blocked cycle -/

theorem loadRom_inv (s : State) {rom : List Byte} (seed : Byte) (slots : Vector Word 24) (h : rom.length ≤ 0xD00) :
    (s.loadRom rom seed slots).Inv where
  memory := Memory.wf_ofRom _ 0x200 rom (by omega)
  pcBound := (by decide : (0x200 : Word).toNat ≤ 0x10FE)
  returns _ hj := absurd hj (Nat.not_lt_zero _)
  haltedNotWaiting := .inl rfl
  record _ hr := nomatch hr

/-- Settles O4: the reset state is what the load of the empty ROM leaves. -/
theorem resetMeetsTheInvariant : Obligations.ResetMeetsTheInvariant :=
  loadRom_inv State.neverLoaded (rom := []) Config.resetSeed (Vector.replicate 24 0) (Nat.zero_le _)

theorem blockedCycle_inv (x : RegIx) {s : State} (hs : s.Inv) : (blockedCycle x s).Inv := by
  cases hk : s.key with
  | none => rwa [blockedCycle_none x hk]
  | some k =>
    rw [blockedCycle_some x hk]
    exact { hs with haltedNotWaiting := .inr rfl }

/-! ### Inside a cycle -/

/-- Past a fetch that the checks accept, PC is an address that CALL may push (R128, R153). -/
theorem State.inCycle_returnAddress {s : State} (h : FetchAccepts s.pc) : ReturnAddress s.inCycle.pc := by
  obtain ⟨hlow, hhigh, heven⟩ := h
  rw [ReturnAddress, s.inCycle_pc_toNat ⟨hlow, hhigh, heven⟩]
  omega

theorem State.inCycle_inv {s : State} (hs : s.Inv) (h : FetchAccepts s.pc) : s.inCycle.Inv := by
  obtain ⟨-, hhigh, -⟩ := s.inCycle_returnAddress h
  exact { hs with pcBound := hhigh.trans (by decide) }

/-- A push keeps the occupied slots return addresses, when what it pushes is one (R161). -/
theorem returns_push {s : State} (hs : s.Inv) (hpc : ReturnAddress s.pc) (h : s.sp.val < 24) (j : Nat)
    (hj : j < s.sp.val + 1) : ReturnAddress ((s.stack.set s.sp.val s.pc)[j]'(by omega)) := by
  rw [Vector.getElem_set]
  split
  · exact hpc
  · exact hs.returns j (by omega)

/-- What an instruction does to a state inside a cycle, where PC is past the instruction, keeps the invariant. -/
theorem Effect.inv {s t : State} {i : Instr} (h : Effect s i t) (hs : s.Inv) (hpc : ReturnAddress s.pc)
    (hf : s.fault = none) : t.Inv := by
  cases h with
  | nothing => exact hs
  | regs _ _ _ ht => rw [ht]; exact { hs with }
  | index _ _ _ ht => rw [ht]; exact { hs with }
  | drawn _ _ _ _ ht => rw [ht]; exact { hs with }
  | blank => exact { hs with }
  | delay => exact { hs with }
  | wait => exact { hs with haltedNotWaiting := .inl hf }
  | pc _ _ _ ht hp =>
    obtain ⟨-, hhigh, -⟩ := hpc
    have bound : t.pc.toNat ≤ 0x10FE := by
      rcases hp with hp | hp | hp
      · rw [hp]; omega
      · rw [hp, BitVec.toNat_add, show (2 : Word).toNat = 2 from rfl]; omega
      · exact hp
    rw [ht]
    exact { hs with pcBound := bound }
  | store _ n bs _ hn _ hb =>
    have hw := s.writeBytes_wf s.i.toNat bs hs.memory (hn ▸ hb)
    rw [s.writeBytes_frame]
    exact { hs with memory := hw }
  | push nnn h => exact { hs with returns := returns_push hs hpc h, pcBound := by rw [zext16_toNat]; omega }
  | pop h =>
    obtain ⟨-, hhigh, -⟩ := hs.returns (s.sp.val - 1) (by omega)
    exact { hs with returns := fun j hj => hs.returns j (hj.trans_le (Nat.sub_le _ _)), pcBound := hhigh.trans (by decide) }

theorem State.lowestBadAddr_ge (s : State) : 0x1000 ≤ s.lowestBadAddr.toNat := by
  unfold State.lowestBadAddr
  split
  · exact le_rfl
  · omega

/-- The record of an instruction's fault names an address that the fetch accepts, and an address out of range for
BoundsViolation alone. -/
theorem Faulted.coherent {s t : State} {i : Instr} {r : FaultRecord} (h : Faulted s i t) (ha : FetchAccepts (s.pc - 2))
    (hr : t.fault = some r) : r.Coherent := by
  cases h with
  | bounds => cases hr; exact ⟨ha, s.lowestBadAddr_ge⟩
  | overflow => cases hr; exact ⟨ha, rfl⟩
  | underflow => cases hr; exact ⟨ha, rfl⟩

/-- The record of a fault of the fetch names a PC that the checks refuse. -/
theorem fetchRecord_coherent {pc : Word} {c : FaultCode} (h : fetchFault pc = some c) :
    FaultRecord.Coherent ⟨c, pc, 0, 0⟩ := by
  obtain ⟨rfl, hrange⟩ | ⟨rfl, hodd⟩ := fetchFault_some h
  · exact ⟨hrange, rfl, rfl⟩
  · exact ⟨hodd, rfl, rfl⟩

/-- A discarded cycle leaves the invariant, when its record is coherent: the block was not waiting. -/
theorem State.Running.inv_setFault {s : State} (hr : s.Running) (hs : s.Inv) {f : Option FaultRecord}
    (hf : ∀ r, f = some r → r.Coherent) : (s.setFault f).Inv :=
  { hs with haltedNotWaiting := .inr hr.2.2, record := hf }

/-- A non-blocked cycle keeps the invariant. -/
theorem Ran.inv {s t : State} (h : Ran s t) (hr : s.Running) (hs : s.Inv) : t.Inv := by
  cases h with
  | fetchFault c hc => exact hr.inv_setFault hs fun r hrec => Option.some.inj hrec ▸ fetchRecord_coherent hc
  | unmapped _ ha _ => exact s.inCycle_inv hs ha
  | effect i _ ha _ he => exact he.inv (s.inCycle_inv hs ha) (s.inCycle_returnAddress ha) hr.inCycle_fault
  | faulted i u ha _ he =>
    exact hr.inv_setFault hs fun r hrec => he.coherent (by rwa [s.inCycle_pc_sub]) hrec

/-! ### A step -/

/-- An outcome is one next state at most. -/
theorem next_unique {o : Host.Outcome State Fault Refusal} {t u : State} (ht : o = .next t) (hu : o = .next u) : t = u :=
  Host.Outcome.next.inj (ht.symm.trans hu)

/-- A block never loaded performs no event but a load. -/
theorem loaded_of_perform_next {s t : State} {e : Event} (h : perform e s = .next t)
    (he : ∀ rom seed slots, e ≠ .load rom seed slots) : s.loaded = true := by
  rw [← Bool.not_eq_false]
  intro hl
  rw [perform_neverLoaded hl he] at h
  cases h

theorem cycle_inv {s t : State} (h : cycle s = .next t) (hs : s.Inv) : t.Inv := by
  have hl : s.loaded = true := loaded_of_perform_next (e := .cycle) h (by simp)
  obtain ⟨u, hu, hcases⟩ := cycle_cases hl
  obtain rfl := next_unique hu h
  obtain ⟨-, rfl⟩ | ⟨x, -, rfl⟩ | ⟨hr, hran⟩ := hcases
  · exact hs
  · exact blockedCycle_inv x hs
  · exact hran.inv hr hs

/-- Everything an event can do: a cycle; a tick; a host action, which writes the host's own cells; a load, of a ROM that fits
or of one that does not. -/
inductive Performed (s : State) : Event → State → Prop where
  | cycle (t) (h : cycle s = .next t) : Performed s .cycle t
  | tick : Performed s .tick (tick s)
  | host (e) (t) (ht : t = { s with key := t.key, drawFlag := t.drawFlag, clearFlag := t.clearFlag,
                                    timerRun := t.timerRun }) : Performed s e t
  | load (rom seed slots) (h : rom.length ≤ 0xD00) : Performed s (.load rom seed slots) (s.loadRom rom seed slots)
  | tooLarge (rom seed slots) (h : 0xD00 < rom.length) : Performed s (.load rom seed slots) s

theorem perform_cases {s t : State} {e : Event} (h : perform e s = .next t) : Performed s e t := by
  have loaded := loaded_of_perform_next h
  cases e with
  | cycle => exact .cycle t h
  | tick => obtain rfl := next_unique (perform_tick (loaded (by simp))) h; exact .tick
  | setKey k => obtain rfl := next_unique (perform_setKey k (loaded (by simp))) h; exact .host _ _ rfl
  | ackDraw => obtain rfl := next_unique (perform_ackDraw (loaded (by simp))) h; exact .host _ _ rfl
  | ackClear => obtain rfl := next_unique (perform_ackClear (loaded (by simp))) h; exact .host _ _ rfl
  | stopTimer => obtain rfl := next_unique (perform_stopTimer (loaded (by simp))) h; exact .host _ _ rfl
  | load rom seed slots =>
    by_cases hfit : rom.length ≤ 0xD00
    · obtain rfl := next_unique (perform_load_fits seed slots hfit) h
      exact .load rom seed slots hfit
    · obtain rfl := next_unique (perform_load_tooLarge seed slots (not_le.1 hfit)) h
      exact .tooLarge rom seed slots (not_le.1 hfit)

/-- The invariant speaks of none of the cells that the timer agent and the host write. -/
theorem perform_inv {s t : State} {e : Event} (h : perform e s = .next t) (hs : s.Inv) : t.Inv := by
  cases perform_cases h with
  | cycle _ h => exact cycle_inv h hs
  | tick => rw [tick_frame]; exact { hs with }
  | host _ _ ht => rw [ht]; exact { hs with }
  | load rom seed slots hfit => exact loadRom_inv s seed slots hfit
  | tooLarge => exact hs

/-- Settles O5: a step is a cycle or the schedule's first event, and what is left of the schedule is no part of the
invariant. -/
theorem stepKeepsTheInvariant : Obligations.StepKeepsTheInvariant := by
  intro s t hs h
  cases hsched : s.schedule with
  | nil => exact cycle_inv ((step_empty hsched).symm.trans h) hs
  | cons e rest => exact perform_inv ((step_event hsched).symm.trans h) { hs with }

end Sys2Proof.Machine
end

section
/-! PROOFS. The opcode map (30_encoding.md R91 to R100): the decoder undoes the encoder on every well-formed instruction, and
what a word decodes to is well formed, in its row, and encodes back to the word. -/

namespace Sys2Proof

/-- Settles O10, by running the decoder on the eleven words. -/
theorem wordsOfTheMapDecode : Obligations.WordsOfTheMapDecode := by
  refine ⟨?_, ?_, ?_, ?_, ?_, ?_, ?_, ?_, ?_, ?_, ?_⟩ <;> rfl

/-! ### Decoding an encoding -/

theorem sysWellFormed_iff (nnn : Addr) :
    sysWellFormed nnn = true ↔ sysLowByte nnn ≠ 0xE0#8 ∧ sysLowByte nnn ≠ 0xEE#8 := by
  simp [sysWellFormed]

/-- One line for each family of the map, whose decoder finds the operands in the fields of the encoding. -/
theorem decode_encode {i : Instr} (h : i.wellFormed = true) : decode (encode i) = .ok i := by
  cases i with
  | cls => rfl
  | ret => rfl
  | sys nnn =>
    obtain ⟨hcls, hret⟩ := (sysWellFormed_iff nnn).1 h
    simp [encode, decode_family0, decodeFamily0, hcls, hret]
  | jp nnn => simp [encode, decode_family1]
  | call nnn => simp [encode, decode_family2]
  | seImm x kk => simp [encode, decode_family3]
  | sneImm x kk => simp [encode, decode_family4]
  | seReg x y n => simp [encode, decode_family5]
  | ldImm x kk => simp [encode, decode_family6]
  | addImm x kk => simp [encode, decode_family7]
  | sneReg x y n => simp [encode, decode_family9]
  | ldI nnn => simp [encode, decode_familyA]
  | jpV0 nnn => simp [encode, decode_familyB]
  | rnd x kk => simp [encode, decode_familyC]
  | drw x y n => simp [encode, decode_familyD]
  | ldReg x y | orReg x y | andReg x y | xorReg x y | addReg x y | subReg x y | shrReg x y | subnReg x y | shlReg x y =>
    simp [encode, decode_family8, decodeFamily8]
  | skp x | sknp x => simp [encode, decode_familyE, decodeFamilyE]
  | ldVxDt x | ldVxK x | ldDtVx x | ldStVx x | addI x | ldF x | ldB x | dump x | fill x =>
    simp [encode, decode_familyF, decodeFamilyF]

/-- Settles O7, family by family: the fields of an encoding are the operands, and pick the instruction's row. -/
theorem decodeOfEncodeIsTheInstruction : Obligations.DecodeOfEncodeIsTheInstruction :=
  fun _ h => decode_encode h

/-! ### Encoding what a word decodes to -/

section Forms
variable {w : Word} {f : Nibble}

theorem wordNNN_of_family (hf : famField w = f) : wordNNN f (nnnField w) = w := hf ▸ wordNNN_fields w

theorem wordXKK_of_family (hf : famField w = f) : wordXKK f (xField w) (kkField w) = w := hf ▸ wordXKK_fields w

theorem wordXYN_of_family (hf : famField w = f) : wordXYN f (xField w) (yField w) (nField w) = w :=
  hf ▸ wordXYN_fields w

theorem wordXKK_of_low_byte {kk : Byte} (hf : famField w = f) (hk : kkField w = kk) : wordXKK f (xField w) kk = w :=
  hk ▸ wordXKK_of_family hf

theorem wordXYN_of_low_nibble {n : Nibble} (hf : famField w = f) (hn : nField w = n) :
    wordXYN f (xField w) (yField w) n = w :=
  hn ▸ wordXYN_of_family hf

/-- What the mask 0xF0FF leaves of a word: its family and its low byte. -/
theorem and_F0FF_of_low_byte {kk : Byte} (hf : famField w = f) (hk : kkField w = kk) :
    w &&& 0xF0FF = wordXKK f 0 kk := by
  rw [← Laws.RowBits.wordXKK_and_F0FF f (xField w), wordXKK_of_low_byte hf hk]

end Forms

/-- The instruction is well formed and its encoding is the word, but for op[11:8] of CLS and RET (R93). -/
def EncodesBack (w : Word) (i : Instr) : Prop :=
  i.wellFormed = true ∧ (encode i = w ∨ ((i = .cls ∨ i = .ret) ∧ encode i = w &&& 0xF0FF))

section Families
variable {w : Word} {i : Instr}

theorem decodeFamily0_encodesBack (hf : famField w = 0x0#4) : EncodesBack w (decodeFamily0 w) := by
  unfold decodeFamily0
  split
  case isTrue hk => exact ⟨rfl, .inr ⟨.inl rfl, (and_F0FF_of_low_byte hf hk).symm⟩⟩
  split
  case isTrue hk => exact ⟨rfl, .inr ⟨.inr rfl, (and_F0FF_of_low_byte hf hk).symm⟩⟩
  next hcls hret =>
    have hlow : sysLowByte (nnnField w) = kkField w := by rw [← kkField_wordNNN 0x0#4, wordNNN_of_family hf]
    exact ⟨(sysWellFormed_iff _).2 (hlow ▸ ⟨hcls, hret⟩), .inl (wordNNN_of_family hf)⟩

theorem decodeFamily8_encodesBack (hf : famField w = 0x8#4) (h : decodeFamily8 w = .ok i) : EncodesBack w i := by
  unfold decodeFamily8 at h
  split at h <;> cases h <;> exact ⟨rfl, .inl (wordXYN_of_low_nibble hf (BitVec.eq_of_toNat_eq ‹_›))⟩

theorem decodeFamilyE_encodesBack (hf : famField w = 0xE#4) (h : decodeFamilyE w = .ok i) : EncodesBack w i := by
  unfold decodeFamilyE at h
  split_ifs at h with hk hk' <;> cases h
  · exact ⟨rfl, .inl (wordXKK_of_low_byte hf hk)⟩
  · exact ⟨rfl, .inl (wordXKK_of_low_byte hf hk')⟩

theorem decodeFamilyF_encodesBack (hf : famField w = 0xF#4) (h : decodeFamilyF w = .ok i) : EncodesBack w i := by
  unfold decodeFamilyF at h
  split_ifs at h <;> cases h <;> exact ⟨rfl, .inl (wordXKK_of_low_byte hf ‹_›)⟩

theorem decode_encodesBack (h : decode w = .ok i) : EncodesBack w i := by
  rcases nibble_cases (famField w) with hf | hf | hf | hf | hf | hf | hf | hf | hf | hf | hf | hf | hf | hf | hf | hf
  · cases (decode_family0 hf).symm.trans h; exact decodeFamily0_encodesBack hf
  · cases (decode_family1 hf).symm.trans h; exact ⟨rfl, .inl (wordNNN_of_family hf)⟩
  · cases (decode_family2 hf).symm.trans h; exact ⟨rfl, .inl (wordNNN_of_family hf)⟩
  · cases (decode_family3 hf).symm.trans h; exact ⟨rfl, .inl (wordXKK_of_family hf)⟩
  · cases (decode_family4 hf).symm.trans h; exact ⟨rfl, .inl (wordXKK_of_family hf)⟩
  · cases (decode_family5 hf).symm.trans h; exact ⟨rfl, .inl (wordXYN_of_family hf)⟩
  · cases (decode_family6 hf).symm.trans h; exact ⟨rfl, .inl (wordXKK_of_family hf)⟩
  · cases (decode_family7 hf).symm.trans h; exact ⟨rfl, .inl (wordXKK_of_family hf)⟩
  · exact decodeFamily8_encodesBack hf ((decode_family8 hf).symm.trans h)
  · cases (decode_family9 hf).symm.trans h; exact ⟨rfl, .inl (wordXYN_of_family hf)⟩
  · cases (decode_familyA hf).symm.trans h; exact ⟨rfl, .inl (wordNNN_of_family hf)⟩
  · cases (decode_familyB hf).symm.trans h; exact ⟨rfl, .inl (wordNNN_of_family hf)⟩
  · cases (decode_familyC hf).symm.trans h; exact ⟨rfl, .inl (wordXKK_of_family hf)⟩
  · cases (decode_familyD hf).symm.trans h; exact ⟨rfl, .inl (wordXYN_of_family hf)⟩
  · exact decodeFamilyE_encodesBack hf ((decode_familyE hf).symm.trans h)
  · exact decodeFamilyF_encodesBack hf ((decode_familyF hf).symm.trans h)

end Families

/-! ### The row of what a word decodes to -/

/-- The encoding of an instruction lies in the instruction's row. -/
theorem encode_and_mask (i : Instr) : encode i &&& i.mask = i.pattern := by
  cases i with
  | cls | ret => decide
  | sys | jp | call | ldI | jpV0 => exact Laws.RowBits.wordNNN_and_F000 _ _
  | seImm | sneImm | ldImm | addImm | rnd => exact Laws.RowBits.wordXKK_and_F000 _ _ _
  | seReg | sneReg | drw => exact Laws.RowBits.wordXYN_and_F000 _ _ _ _
  | ldReg | orReg | andReg | xorReg | addReg | subReg | shrReg | subnReg | shlReg =>
    exact Laws.RowBits.wordXYN_and_F00F _ _ _ _
  | skp | sknp | ldVxDt | ldVxK | ldDtVx | ldStVx | addI | ldF | ldB | dump | fill =>
    exact Laws.RowBits.wordXKK_and_F0FF _ _ _

/-- A word that an instruction encodes back to lies in the instruction's row: CLS and RET fix no bit outside 0xF0FF. -/
theorem EncodesBack.and_mask {w : Word} {i : Instr} (h : EncodesBack w i) : w &&& i.mask = i.pattern := by
  obtain ⟨-, rfl | ⟨rfl | rfl, hw⟩⟩ := h
  · exact encode_and_mask i
  · exact hw.symm
  · exact hw.symm

/-- Settles O8: the encoding lies in the row, and so does the word that has the encoding's bits under the row's mask. -/
theorem decodedWordMatchesItsRow : Obligations.DecodedWordMatchesItsRow := by
  intro w i h
  have hback := decode_encodesBack h
  exact ⟨hback.1, hback.and_mask, hback.2⟩

end Sys2Proof
end

section
/-! PROOFS. Memory and the load (20_memory.md, 70_reset_and_hazards.md): canonical memories as data, the block a load leaves
or refuses, the block that none has reached, and a register load after a register dump. -/

namespace Sys2Proof.Machine

/-! ### Canonical memories (R60, R68) -/

/-- A canonical memory reads unlike the unlisted contents at its first cell, so unlike every memory whose cells lie above. -/
theorem Memory.read_head_ne {font : Font} {lo k : Nat} {b : Byte} {m m' : Memory}
    (h : Memory.wfFrom font lo ((k, b) :: m) = true) (h' : Memory.wfFrom font (k + 1) m' = true) :
    Memory.read font ((k, b) :: m) k ≠ Memory.read font m' k := by
  obtain ⟨-, -, hb, -⟩ := (Memory.wfFrom_cell font).1 h
  rwa [Memory.read_cell, if_pos rfl, Memory.read_below font h' k.lt_succ_self]

/-- By induction on the cells: were the first cells at different addresses, the memories would differ at the lower one. -/
theorem Memory.eq_of_read_eq {font : Font} {lo : Nat} {m m' : Memory} (h : Memory.wfFrom font lo m = true)
    (h' : Memory.wfFrom font lo m' = true) (hread : ∀ a, Memory.read font m a = Memory.read font m' a) : m = m' := by
  induction m generalizing lo m' with
  | nil =>
    cases m' with
    | nil => rfl
    | cons c m' => exact absurd (hread c.1).symm (Memory.read_head_ne h' rfl)
  | cons c m ih =>
    obtain ⟨k, b⟩ := c
    cases m' with
    | nil => exact absurd (hread k) (Memory.read_head_ne h rfl)
    | cons c' m' =>
      obtain ⟨k', b'⟩ := c'
      obtain ⟨-, hk, hb, hm⟩ := (Memory.wfFrom_cell font).1 h
      obtain ⟨-, hk', hb', hm'⟩ := (Memory.wfFrom_cell font).1 h'
      rcases lt_trichotomy k k' with hlt | rfl | hgt
      · exact absurd (hread k) (Memory.read_head_ne h ((Memory.wfFrom_cell font).2 ⟨hlt, hk', hb', hm'⟩))
      · have hbyte : b = b' := by simpa [Memory.read_cell] using hread k
        have htail (a : Nat) : Memory.read font m a = Memory.read font m' a := by
          by_cases ha : k = a
          · subst ha
            rw [Memory.read_below font hm k.lt_succ_self, Memory.read_below font hm' k.lt_succ_self]
          · simpa [Memory.read_cell, ha] using hread a
        rw [hbyte, ih hm hm' htail]
      · exact absurd (hread k').symm (Memory.read_head_ne h' ((Memory.wfFrom_cell font).2 ⟨hgt, hk, hb, hm⟩))

/-- Settles O48: the canonical form is that of cells from address 0 on. -/
theorem canonicalMemoriesAreEqualData : Obligations.CanonicalMemoriesAreEqualData :=
  fun _ _ _ h h' => Memory.eq_of_read_eq h h'

/-! ### The load (R350 to R352) -/

theorem loadPort_fits (s : State) {rom : List Byte} (seed : Byte) (slots : Vector Word 24) (h : rom.length ≤ 0xD00) :
    loadPort rom seed slots s = (.ok, s.loadRom rom seed slots) := if_neg h.not_gt

/-- The font, zeros up to the ROM, the ROM, and zeros again (R350, R352). -/
theorem byteAt_loadRom (s : State) {rom : List Byte} (seed : Byte) (slots : Vector Word 24) (h : rom.length ≤ 0xD00)
    (a : Nat) : (s.loadRom rom seed slots).byteAt a =
      if h : a < 80 then s.params.font[a] else if a < 0x200 then 0 else rom.getD (a - 0x200) 0 := by
  have hread := Memory.read_ofRom s.params.font 0x200 a rom (by omega)
  refine hread.trans ?_
  by_cases hfont : a < 80
  · rw [if_pos (by omega), dif_pos hfont, Memory.unlisted, dif_pos hfont]
  · rw [dif_neg hfont, Memory.unlisted_high _ (not_lt.1 hfont)]

/-- Settles O1: the port's two answers; the bytes are those of `byteAt_loadRom`, every other cell is as the load wrote it. -/
theorem loadInitialisesTheWholeBlock : Obligations.LoadInitialisesTheWholeBlock := by
  intro s rom seed slots
  refine ⟨loadPort_tooLarge s seed slots, fun hfit => ⟨_, loadPort_fits s seed slots hfit,
    fun a _ => byteAt_loadRom s seed slots hfit a, fun x => ?reg, rfl, rfl, rfl, rfl, rfl, rfl, rfl, rfl, fun r => ?row,
    rfl, rfl, rfl, rfl, rfl, rfl, rfl, rfl⟩⟩
  case reg => exact Vector.getElem_replicate _
  case row => exact Vector.getElem_replicate _

/-- Settles O3: the empty ROM lists no cell, so both clauses are the definitions read off. -/
theorem resetIsTheLoadOfTheEmptyRom : Obligations.ResetIsTheLoadOfTheEmptyRom :=
  ⟨loadPort_fits State.neverLoaded _ _ (Nat.zero_le _), fun _ => rfl⟩

/-! ### A block never loaded (R358) -/

theorem rowPort_neverLoaded {s : State} (h : s.loaded = false) (r : Nat) : rowPort r s = none := by
  by_cases hr : r < 32
  · rw [rowPort, dif_pos hr, if_neg (by simp [h])]
  · exact rowPort_of_ge s (not_lt.1 hr)

/-- Settles O22: the cycle, the row port and every event but a load look at `loaded` first. -/
theorem neverLoadedBlockIsRefused : Obligations.NeverLoadedBlockIsRefused := by
  intro s hl
  refine ⟨fun hs => ?cycle, rowPort_neverLoaded hl, fun e rest hs he => ?event, fun rom seed slots rest hs hfit => ?load⟩
  case cycle => exact (step_empty hs).trans (cycle_neverLoaded hl)
  case event => exact (step_event hs).trans (perform_neverLoaded hl he)
  case load => exact ⟨_, (step_event hs).trans (perform_load_fits seed slots hfit), ⟨rfl, rfl, rfl⟩, rfl⟩

/-! ### Dump, then load (R224, R225) -/

/-- Settles O47: the dump leaves V[k] at I + k and I alone, and the load reads V[k] from there. -/
theorem fillUndoesDump : Obligations.FillUndoesDump := by
  intro x s t w hw hfit ht
  obtain ⟨-, hdump⟩ := dumpStoresRegistersUpToX
  obtain ⟨-, hfill⟩ := fillLoadsRegistersUpToX
  obtain ⟨t', ht', hstored, -, hframe⟩ := (hdump x s).1 hfit
  obtain rfl := next_unique ht' ht
  have hi : t'.i = s.i := by rw [hframe]
  obtain ⟨u, hu, hloaded, -⟩ := (hfill x { t' with v := w }).1 (by rwa [hi])
  refine ⟨u, hu, fun k hk => ?_⟩
  calc u.reg k = t'.byteAt (t'.i.toNat + k.val) := by rw [hloaded k, if_pos hk]; rfl
    _ = s.reg k := by rw [hi, hstored hw k hk]

end Sys2Proof.Machine
end

section
/-! PROOFS. Who writes what (10_state.md R21 to R37, 20_memory.md R60): for each cell of the state the instructions that can
change it, said once of every instruction, and the delay timer's one reader (60_exceptions.md R327). -/

namespace Sys2Proof.Machine

/-! ### The writers of each cell -/

/-- Settles O13: an instruction's effect is a next state, and so is its fault. -/
theorem everyInstructionAnswersNext : Obligations.EveryInstructionAnswersNext := by
  intro i s
  obtain ⟨t, ht, -⟩ := exec_cases i s
  exact ⟨t, ht⟩

/-- Each cell that an instruction can write is as before, or the instruction is one of the cell's writers. -/
structure Writers (s : State) (i : Instr) (t : State) : Prop where
  index : t.i = s.i ∨ (∃ nnn, i = .ldI nnn) ∨ (∃ x, i = .addI x) ∨ ∃ x, i = .ldF x
  memory : t.mem = s.mem ∨ ((∃ x, i = .ldB x) ∨ ∃ x, i = .dump x) ∧
    ∃ bs, bs.length ≤ 16 ∧ s.i.toNat + bs.length ≤ 0x1000 ∧ t = s.writeBytes s.i.toNat bs
  stack : t.stack = s.stack ∨ ∃ nnn, i = .call nnn
  sp : t.sp = s.sp ∨ i = .ret ∨ ∃ nnn, i = .call nnn
  regs : t.v = s.v ∨ writesRegs i = true ∨ ∃ x y n, i = .drw x y n
  screen : t.fb = s.fb ∨ i = .cls ∨ ∃ x y n, i = .drw x y n
  drawFlag : t.drawFlag = s.drawFlag ∨ t.drawFlag = true ∧ ∃ x y n, i = .drw x y n
  clearFlag : t.clearFlag = s.clearFlag ∨ t.clearFlag = true ∧ i = .cls
  wait : t.wait = s.wait ∨ ∃ x, i = .ldVxK x
  delay : t.dt = s.dt ∨ ∃ x, i = .ldDtVx x ∧ t.dt = s.reg x

theorem Effect.writers {s t : State} {i : Instr} (h : Effect s i t) : Writers s i t := by
  cases h with
  | nothing => constructor <;> simp
  | regs _ _ hi ht => rw [ht]; constructor <;> simp [hi]
  | pc _ _ _ ht _ => rw [ht]; constructor <;> simp
  | index _ _ hi ht => rw [ht]; constructor <;> simp [hi]
  | store _ n bs hi hn h16 hb =>
    constructor
    case memory => exact .inr ⟨hi, bs, hn ▸ h16, hn ▸ hb, rfl⟩
    all_goals rw [s.writeBytes_frame]; simp
  | push => constructor <;> simp
  | pop => constructor <;> simp
  | blank => constructor <;> simp
  | drawn x y n _ ht => rw [ht]; constructor <;> simp
  | delay x => constructor <;> simp
  | wait x => constructor <;> simp

theorem exec_writers {s t : State} {i : Instr} (h : exec i s = .next t) : Writers s i t := by
  obtain he | hf := exec_effect h
  · exact he.writers
  · rw [hf.frame]
    constructor <;> simp

/-- The cells that no instruction writes: the host's, the generator, CUR_OP, the parameters and the model's own two. -/
theorem exec_keeps {s t : State} {i : Instr} (h : exec i s = .next t) :
    t.key = s.key ∧ t.timerRun = s.timerRun ∧ t.rng = s.rng ∧ t.curOp = s.curOp ∧ t.params = s.params ∧
      t.loaded = s.loaded ∧ t.schedule = s.schedule := by
  obtain he | hf := exec_effect h
  · rw [he.frame]
    exact ⟨rfl, rfl, rfl, rfl, rfl, rfl, rfl⟩
  · rw [hf.frame]
    exact ⟨rfl, rfl, rfl, rfl, rfl, rfl, rfl⟩

/-- A byte that an instruction changes lies in the run that it stores (R223, R224). -/
theorem exec_byteAt_ne {s t : State} {i : Instr} (h : exec i s = .next t) {a : Nat} (ha : t.byteAt a ≠ s.byteAt a) :
    ((∃ x, i = .ldB x) ∨ ∃ x, i = .dump x) ∧ s.i.toNat ≤ a ∧ a < s.i.toNat + 16 ∧ a < 0x1000 := by
  obtain ⟨-, -, -, -, hparams, -, -⟩ := exec_keeps h
  obtain hmem | ⟨hi, bs, h16, hfit, rfl⟩ := (exec_writers h).memory
  · exact absurd (byteAt_congr hparams hmem a) ha
  · have hrun : ¬ (a < s.i.toNat ∨ s.i.toNat + bs.length ≤ a) := fun hout =>
      ha (s.byteAt_writeBytes_outside _ a bs hout)
    exact ⟨hi, by omega⟩

/-- Settles O57, one cell at a time. -/
theorem indexMemoryAndStackHaveFewWriters : Obligations.IndexMemoryAndStackHaveFewWriters := by
  intro i s t h
  have w := exec_writers h
  exact ⟨w.index.resolve_left, fun a => exec_byteAt_ne h, w.stack.resolve_left, w.sp.resolve_left⟩

/-- Settles O58, one cell at a time. -/
theorem displayIsWrittenByClsAndDrwAlone : Obligations.DisplayIsWrittenByClsAndDrwAlone := by
  intro i s t h
  have w := exec_writers h
  exact ⟨w.screen.resolve_left, w.drawFlag.resolve_left, w.clearFlag.resolve_left⟩

/-- Settles O60: the cells that nothing writes, and the two that one instruction each writes. -/
theorem noInstructionWritesTheHostsCells : Obligations.NoInstructionWritesTheHostsCells := by
  intro i s t h
  have w := exec_writers h
  obtain ⟨hkey, hrun, hrng, hop, hparams, hloaded, hsched⟩ := exec_keeps h
  refine ⟨hkey, hrun, hrng, hop, hparams, hloaded, hsched, w.wait.resolve_left, fun hdt => ?_⟩
  obtain ⟨x, hi, -⟩ := w.delay.resolve_left hdt
  exact ⟨x, hi⟩

/-! ### The writers of VF (R21) -/

/-- A write of one register changes VF only where VF is that register. -/
theorem eq_vf_of_setReg {s t : State} {x : RegIx} {b : Byte} {o : Host.Outcome State Fault Refusal}
    (ho : o = .next (s.setReg x b)) (h : o = .next t) (hvf : t.reg 15 ≠ s.reg 15) : x = 15 := by
  obtain rfl := next_unique ho h
  exact not_imp_comm.1 (fun hx => s.reg_setReg_ne b (Ne.symm hx)) hvf

/-- Fx07 changes VF only in its load mode, as the register it loads. -/
theorem execLdVxDt_vf {s t : State} {x : RegIx} (h : execLdVxDt x s = .next t) (hvf : t.reg 15 ≠ s.reg 15) : x = 15 := by
  obtain ⟨-, rfl⟩ | ⟨-, rfl⟩ := execLdVxDt_cases h
  · exact absurd (reg_congr (s.skipIf_v _) 15) hvf
  · exact eq_vf_of_setReg rfl rfl hvf

/-- The register load changes VF only where its run reaches V[15]. -/
theorem execFill_vf {s t : State} {x : RegIx} (h : execFill x s = .next t) (hvf : t.reg 15 ≠ s.reg 15) : x = 15 := by
  obtain ⟨-, rfl⟩ | ⟨-, -, rfl⟩ := s.withSpan_cases _ _ t h
  · by_contra hx
    have hlt : ¬ 15 ≤ x := fun hle => hx (le_antisymm (Fin.le_last x) hle)
    exact hvf ((reg_setRegs_readBytes s _ x 15).trans (if_neg hlt))
  · exact absurd rfl hvf

/-- Settles O59: VF is a register, so its writers are among those of the registers; those that write V[x] alone change VF
only when x = 15. -/
theorem flagWritersAreThoseOfTheRule : Obligations.FlagWritersAreThoseOfTheRule := by
  intro i s t h hvf
  obtain hv | hi | hdrw := (exec_writers h).regs
  · exact absurd (reg_congr hv 15) hvf
  · cases i with
    | addReg x y | subReg x y | shrReg x y | subnReg x y | shlReg x y => exact .inl ⟨x, y, by simp⟩
    | ldImm x kk => simp [eq_vf_of_setReg (exec_ldImm x kk s) h hvf]
    | addImm x kk => simp [eq_vf_of_setReg (exec_addImm x kk s) h hvf]
    | rnd x kk => simp [eq_vf_of_setReg (exec_rnd x kk s) h hvf]
    | ldReg x y => simp [eq_vf_of_setReg (exec_ldReg x y s) h hvf]
    | orReg x y => simp [eq_vf_of_setReg (exec_orReg x y s) h hvf]
    | andReg x y => simp [eq_vf_of_setReg (exec_andReg x y s) h hvf]
    | xorReg x y => simp [eq_vf_of_setReg (exec_xorReg x y s) h hvf]
    | ldVxDt x => simp [execLdVxDt_vf h hvf]
    | fill x => simp [execFill_vf h hvf]
    | _ => cases hi
  · exact .inr (.inl hdrw)

/-! ### The reader of DT (R327) -/

section Delay
variable (d : Byte) (s : State)

theorem setRegs_setDt (k : Nat) (bs : List Byte) : (s.setDt d).setRegs k bs = (s.setRegs k bs).setDt d := by
  induction bs generalizing s k with
  | nil => rfl
  | cons b bs ih =>
    rw [State.setRegs, State.setRegs]
    split
    · exact ih (s.setReg ⟨k, ‹_›⟩ b) (k + 1)
    · exact ih s (k + 1)

theorem readBytes_setDt (a n : Nat) : (s.setDt d).readBytes a n = s.readBytes a n := by
  induction n generalizing a with
  | zero => rfl
  | succ n ih =>
    rw [State.readBytes, State.readBytes, ih]
    rfl

theorem writeBytes_setDt (a : Nat) (bs : List Byte) : (s.setDt d).writeBytes a bs = (s.writeBytes a bs).setDt d := by
  induction bs generalizing s a with
  | nil => rfl
  | cons b bs ih => exact ih (s.writeByte a b) (a + 1)

theorem skipIf_setDt (c : Bool) : (s.setDt d).skipIf c = (s.skipIf c).setDt d := by cases c <;> rfl

theorem drawSprite_setDt (x y : RegIx) (n : Nibble) : drawSprite x y n (s.setDt d) = (drawSprite x y n s).setDt d := by
  rw [drawSprite, readBytes_setDt]
  rfl

variable {d s}

theorem withSpan_setDt {n : Nat} {go go' t : State} (hgo : go' = go.setDt d) (h : s.withSpan n go = .next t) :
    (s.setDt d).withSpan n go' = .next (t.setDt d) := by
  subst hgo
  obtain ⟨hfit, rfl⟩ | ⟨h0, hbad, rfl⟩ := s.withSpan_cases n go t h
  · exact (s.setDt d).withSpan_ok _ hfit
  · exact (s.setDt d).withSpan_bad _ h0 hbad

/-- An instruction that neither reads nor writes DT does the same whatever DT holds, and leaves it there. -/
theorem exec_setDt {t : State} {i : Instr} (hread : ∀ x, i ≠ .ldVxDt x) (hwrite : ∀ x, i ≠ .ldDtVx x)
    (h : exec i s = .next t) : exec i (s.setDt d) = .next (t.setDt d) := by
  have skips {c : Bool} (hc : Host.Outcome.next (s.skipIf c) = (.next t : Host.Outcome State Fault Refusal)) :
      Host.Outcome.next ((s.setDt d).skipIf c) = (.next (t.setDt d) : Host.Outcome State Fault Refusal) := by
    cases hc
    rw [skipIf_setDt]
  cases i with
  | ldVxDt x => exact absurd rfl (hread x)
  | ldDtVx x => exact absurd rfl (hwrite x)
  | ret =>
    obtain ⟨h0, rfl⟩ | ⟨h0, rfl⟩ := execRet_cases h
    · exact exec_ret_of_eq_zero (s := s.setDt d) (Fin.ext h0)
    · exact exec_ret_of_pos (s := s.setDt d) h0
  | call nnn =>
    obtain ⟨h24, rfl⟩ | ⟨hlt, rfl⟩ := execCall_cases h
    · exact exec_call_of_eq_24 nnn (s := s.setDt d) (Fin.ext h24)
    · exact exec_call_of_lt nnn (s := s.setDt d) hlt
  | seImm | sneImm | seReg | sneReg | skp | sknp => exact skips h
  | drw x y n => exact withSpan_setDt (drawSprite_setDt d s x y n) h
  | ldB x => exact withSpan_setDt (writeBytes_setDt d s _ _) h
  | dump x => exact withSpan_setDt (writeBytes_setDt d s _ _) h
  | fill x =>
    refine withSpan_setDt ?_ h
    rw [readBytes_setDt, setRegs_setDt]
    rfl
  | _ => cases h; rfl

end Delay

/-- Settles O27: Fx15 overwrites DT with a register, and every other instruction passes DT by. -/
theorem delayTimerIsReadByFx07Alone : Obligations.DelayTimerIsReadByFx07Alone := by
  intro i s t d hread h
  by_cases hwrite : ∀ x, i ≠ .ldDtVx x
  · have hdt : t.dt = s.dt := (exec_writers h).delay.resolve_right fun ⟨x, hi, _⟩ => hwrite x hi
    exact ⟨_, exec_setDt hread hwrite h, rfl, fun _ => ⟨rfl, hdt⟩, fun x hi => absurd hi (hwrite x)⟩
  · push Not at hwrite
    obtain ⟨x, rfl⟩ := hwrite
    obtain rfl := next_unique (exec_ldDtVx x s) h
    exact ⟨_, exec_ldDtVx x _, rfl, fun hne => absurd rfl (hne x), fun _ _ => rfl⟩

end Sys2Proof.Machine
end

section
/-! PROOFS. The cycle and the agents' events, whatever the instruction (40_cycle.md R120 to R134, 60_exceptions.md R310, R325
to R327): what a cycle commits, the table of its faults, what does not depend on the schedule or on CUR_OP, and who moves
DT between two steps. -/

namespace Sys2Proof.Machine

/-! ### What a cycle commits (R125, R127, R131) -/

/-- Settles O11: the commit at the end of the cycle asks whether the instruction recorded a fault. -/
theorem stepRunsTheDecodedInstruction : Obligations.StepRunsTheDecodedInstruction := by
  intro s i hs hr ha hd t ht
  have hstep : step s = commit s (.next t) := by
    rw [step_of_fetchAccepts hs hr ha, execute_ok (w := s.opcode) hd, ht]
  rw [hstep]
  cases hf : t.fault with
  | none => rw [commit_ok s hf, if_pos rfl]
  | some r => rw [commit_faulted s hf, if_neg (Option.some_ne_none r)]

/-- A cycle that records no fault leaves RNG and CUR_OP as the cycle's first steps wrote them. -/
theorem Ran.retired {s t : State} (h : Ran s t) (hf : t.fault = none) :
    t.rng = s.inCycle.rng ∧ t.curOp = s.inCycle.curOp := by
  cases h with
  | fetchFault c _ => cases hf
  | unmapped => exact ⟨rfl, rfl⟩
  | effect _ _ _ _ he => rw [he.frame]; exact ⟨rfl, rfl⟩
  | faulted _ u _ _ he => exact absurd hf (Option.isSome_iff_ne_none.1 he.isSome)

/-- Settles O20: RNG and CUR_OP are written before the dispatch, and no instruction writes them. -/
theorem retiredCycleAdvancesTheGenerator : Obligations.RetiredCycleAdvancesTheGenerator :=
  fun _ _ hs hr ht hf => (step_ran hs hr ht).retired hf

/-! ### The table of the faults (R310) -/

/-- What the table says of a fault with this record, raised while the cycle ran the decoder's answer `d`. -/
def FaultTable (s : State) (d : Except Unmapped Instr) (r : FaultRecord) : Prop :=
  match r.code with
  | .boundsViolation => r.addr = s.badAddr ∧
      ((∃ x y n, d = .ok (.drw x y n)) ∨ (∃ x, d = .ok (.ldB x) ∨ d = .ok (.dump x) ∨ d = .ok (.fill x)))
  | .stackOverflow => (∃ nnn, d = .ok (.call nnn)) ∧ s.sp = 24 ∧ r.addr = 0x0000
  | .stackUnderflow => d = .ok .ret ∧ s.sp = 0 ∧ r.addr = 0x0000
  | .pcOutOfRange => (s.pc.toNat < 0x200 ∨ 0x1000 ≤ s.pc.toNat) ∧ r.addr = 0x0000
  | .pcMisaligned => s.pc.toNat % 2 = 1 ∧ r.addr = 0x0000

theorem faultTable_of_fetch {s : State} {c : FaultCode} (h : fetchFault s.pc = some c) (d : Except Unmapped Instr) :
    FaultTable s d ⟨c, s.pc, 0, 0⟩ := by
  obtain ⟨rfl, hrange⟩ | ⟨rfl, -, -, hodd⟩ := fetchFault_some h
  · exact ⟨hrange, rfl⟩
  · exact ⟨hodd, rfl⟩

theorem Faulted.faultTable {s t : State} {i : Instr} {r : FaultRecord} (h : Faulted s.inCycle i t)
    (hr : t.fault = some r) : FaultTable s (.ok i) r := by
  cases h with
  | bounds _ hi =>
    cases hr
    exact ⟨s.lowestBadAddr_eq, by simpa using hi⟩
  | overflow nnn hsp =>
    cases hr
    exact ⟨⟨nnn, rfl⟩, Fin.ext hsp, rfl⟩
  | underflow hsp =>
    cases hr
    exact ⟨rfl, Fin.ext hsp, rfl⟩

/-- The code port shows the code's number, or 0 (R36). -/
theorem faultCodePort_eq (s : State) :
    (s.fault = none → faultCodePort s = 0) ∧ ∀ r, s.fault = some r → faultCodePort s = r.code.number := by
  constructor
  · intro h
    rw [faultCodePort, h]
  · intro r h
    rw [faultCodePort, h]

/-- Settles O19: a recorded fault is the fetch's or the decoded instruction's, and each stands in the table. -/
theorem faultTableOfTheSpec : Obligations.FaultTableOfTheSpec := by
  refine ⟨fun c => by cases c <;> rfl, faultCodePort_eq, fun s t r hs hrun ht hr => ?raiser⟩
  case raiser =>
    change FaultTable s (decode s.opcode) r
    obtain ⟨-, ⟨hfetch, hrec⟩ | ⟨i, u, hd, hfault, hu⟩⟩ := (step_ran hs hrun ht).fault_cases hrun hr
    · rw [hrec]
      exact faultTable_of_fetch hfetch _
    · rw [hd]
      exact hfault.faultTable hu

/-! ### What does not depend on the schedule or on CUR_OP -/

/-- Settles O12: no cycle reads the schedule, and a cycle at its head is performed with the rest of it. -/
theorem scheduledCycleIsTheUnscheduledCycle : Obligations.ScheduledCycleIsTheUnscheduledCycle := by
  intro s rest
  have scheduled : step { s with schedule := .cycle :: rest } = mapSchedule rest (step { s with schedule := [] }) :=
    calc step { s with schedule := .cycle :: rest } = cycle { s with schedule := rest } :=
          step_event (e := .cycle) (rest := rest) rfl
      _ = mapSchedule rest (cycle { s with schedule := [] }) := cycle_withSchedule rest { s with schedule := [] }
      _ = mapSchedule rest (step { s with schedule := [] }) := by rw [step_empty rfl]
  constructor
  · intro t ht
    rw [scheduled, ht]
    rfl
  · intro r hr
    rw [scheduled, hr]
    rfl

/-- The state with another CUR_OP. -/
def State.withCurOp (c : Word) (s : State) : State := { s with curOp := c }

/-- Both outcomes are next states, alike but for CUR_OP. -/
def AlikeButCurOp (o o' : Host.Outcome State Fault Refusal) : Prop :=
  ∃ t c, o = .next t ∧ o' = .next (t.withCurOp c)

theorem tick_withCurOp (c : Word) (s : State) : tick (s.withCurOp c) = (tick s).withCurOp c := by
  have timerRun_eq : (s.withCurOp c).timerRun = s.timerRun := rfl
  unfold tick
  rw [timerRun_eq]
  split <;> rfl

/-- A non-blocked cycle that fetches an instruction writes CUR_OP before it reads it; one that does not leaves it alone, and
so does a fault that discards the cycle. -/
theorem runCycle_withCurOp (s : State) (c : Word) :
    AlikeButCurOp (runCycle s) (runCycle (s.withCurOp c)) := by
  have pc_eq : (s.withCurOp c).pc = s.pc := rfl
  have execute_eq : execute (s.withCurOp c).opcode (s.withCurOp c).fetched = execute s.opcode s.fetched := rfl
  unfold runCycle
  rw [pc_eq, execute_eq]
  cases fetchFault s.pc with
  | some code => exact ⟨_, c, rfl, rfl⟩
  | none =>
    obtain ⟨t, ht⟩ : ∃ t, execute s.opcode s.fetched = .next t := by
      cases hd : decode s.opcode with
      | error u => exact ⟨_, execute_error hd _⟩
      | ok i =>
        obtain ⟨t, ht⟩ := everyInstructionAnswersNext i s.fetched
        exact ⟨t, (execute_ok hd _).trans ht⟩
    simp only [ht]
    cases hfault : t.fault with
    | none => exact ⟨t, t.curOp, commit_ok _ hfault, commit_ok _ hfault⟩
    | some r => exact ⟨_, c, commit_faulted _ hfault, commit_faulted _ hfault⟩

theorem cycle_withCurOp {s : State} (c : Word) (h : s.loaded = true) :
    AlikeButCurOp (cycle s) (cycle (s.withCurOp c)) := by
  obtain hr | hh | ⟨x, hw⟩ := State.agentState_of_loaded h
  · have hr' : (s.withCurOp c).Running := hr
    rw [cycle_running hr, cycle_running hr']
    exact runCycle_withCurOp s c
  · have hh' : (s.withCurOp c).Halted := hh
    exact ⟨s, c, cycle_halted hh, cycle_halted hh'⟩
  · have hw' : (s.withCurOp c).Waiting x := hw
    refine ⟨_, c, cycle_waiting hw, (cycle_waiting hw').trans ?_⟩
    cases hk : s.key with
    | none => rw [blockedCycle_none x hk, blockedCycle_none (s := s.withCurOp c) x hk]
    | some k => rw [blockedCycle_some x hk, blockedCycle_some (s := s.withCurOp c) x hk]; rfl

theorem perform_withCurOp {s : State} (e : Event) (c : Word) (h : s.loaded = true) :
    AlikeButCurOp (perform e s) (perform e (s.withCurOp c)) := by
  have h' : (s.withCurOp c).loaded = true := h
  cases e with
  | cycle => exact cycle_withCurOp c h
  | tick =>
    refine ⟨_, c, perform_tick h, (perform_tick h').trans ?_⟩
    rw [tick_withCurOp]
  | setKey k => exact ⟨_, c, perform_setKey k h, perform_setKey k h'⟩
  | ackDraw => exact ⟨_, c, perform_ackDraw h, perform_ackDraw h'⟩
  | ackClear => exact ⟨_, c, perform_ackClear h, perform_ackClear h'⟩
  | stopTimer => exact ⟨_, c, perform_stopTimer h, perform_stopTimer h'⟩
  | load rom seed slots =>
    by_cases hfit : rom.length ≤ 0xD00
    · exact ⟨_, 0, perform_load_fits seed slots hfit, perform_load_fits seed slots hfit⟩
    · exact ⟨s, c, perform_load_tooLarge seed slots (not_le.1 hfit), perform_load_tooLarge seed slots (not_le.1 hfit)⟩

/-- Settles O23: neither a cycle nor another event reads the CUR_OP it starts with. -/
theorem currentOpcodeIsReadByNothing : Obligations.CurrentOpcodeIsReadByNothing := by
  intro s c hl
  have alike : AlikeButCurOp (step s) (step (s.withCurOp c)) := by
    cases hs : s.schedule with
    | nil =>
      rw [step_empty hs, step_empty (s := s.withCurOp c) hs]
      exact cycle_withCurOp c hl
    | cons e rest =>
      rw [step_event hs, step_event (s := s.withCurOp c) hs]
      exact perform_withCurOp e c hl
  obtain ⟨t, c', ht, ht'⟩ := alike
  exact ⟨t, _, ht, ht', rfl⟩

/-! ### The delay timer between two steps (R325 to R327) -/

/-- Settles O25, by induction on the number of ticks: one tick is one less, and leaves the rest of the schedule. -/
theorem manyTicksSaturateAtZero : Obligations.ManyTicksSaturateAtZero := by
  intro n
  induction n with
  | zero => exact fun s rest _ hs => ⟨s, run_zero s, by simp, by rw [← show s.schedule = rest from hs]⟩
  | succ n ih =>
    intro s rest hl hs
    rw [List.replicate_succ, List.cons_append] at hs
    obtain ⟨u, hu, hdt, hframe⟩ := tickDecrementsTheTimer s (List.replicate n .tick ++ rest) hl hs
    obtain ⟨t, ht, hdt', hframe'⟩ := ih u rest (by rw [hframe]; exact hl) (by rw [hframe])
    have hrun : u.timerRun = s.timerRun := by rw [hframe]
    refine ⟨t, (run_next n hu).trans ht, ?ticks, ?frame⟩
    case ticks =>
      rw [hdt', hdt, hrun]
      split <;> omega
    case frame => rw [hframe', hframe]

/-- A cycle that moves DT is that of a running block, and runs Fx15. -/
theorem cycle_dt_ne {s t : State} (h : cycle s = .next t) (hdt : t.dt ≠ s.dt) :
    ∃ x, decode s.opcode = .ok (.ldDtVx x) ∧ FetchAccepts s.pc ∧ s.Running ∧ t.dt = s.reg x := by
  obtain ⟨u, hu, hcases⟩ := cycle_cases (loaded_of_perform_next (e := .cycle) h (by simp))
  obtain rfl := next_unique hu h
  obtain ⟨-, rfl⟩ | ⟨x, -, rfl⟩ | ⟨hr, hran⟩ := hcases
  · exact absurd rfl hdt
  · refine absurd ?_ hdt
    cases hk : s.key with
    | none => rw [blockedCycle_none x hk]
    | some k => rw [blockedCycle_some x hk]; rfl
  · cases hran with
    | fetchFault => exact absurd rfl hdt
    | unmapped => exact absurd rfl hdt
    | faulted => exact absurd rfl hdt
    | effect i _ ha hd he =>
      obtain ⟨x, rfl, hx⟩ := he.writers.delay.resolve_left hdt
      exact ⟨x, hd, ha, hr, hx⟩

/-- An event other than a cycle that moves DT is a tick, which lowers it, or a load, which clears it. -/
theorem perform_dt_ne {s t : State} {e : Event} (hc : e ≠ .cycle) (h : perform e s = .next t) (hdt : t.dt ≠ s.dt) :
    (e = .tick ∧ t.dt.toNat < s.dt.toNat) ∨ (∃ rom seed slots, e = .load rom seed slots ∧ t.dt = 0) := by
  cases perform_cases h with
  | cycle => exact absurd rfl hc
  | tick =>
    have hne : (tick s).dt.toNat ≠ s.dt.toNat := BitVec.toNat_ne.1 hdt
    have hle : (tick s).dt.toNat ≤ s.dt.toNat := by rw [tick_dt_toNat]; split <;> omega
    exact .inl ⟨rfl, lt_of_le_of_ne hle hne⟩
  | host _ _ ht => exact absurd (by rw [ht]) hdt
  | load rom seed slots => exact .inr ⟨rom, seed, slots, rfl, rfl⟩
  | tooLarge => exact absurd rfl hdt

/-- Settles O26: the step is a cycle, with no event due or with one at the head of the schedule, or another event. -/
theorem onlyTickAndSetDelayWriteTheTimer : Obligations.OnlyTickAndSetDelayWriteTheTimer := by
  intro s t h hdt
  cases hs : s.schedule with
  | nil =>
    rw [step_empty hs] at h
    exact .inr (.inr ⟨.inl rfl, cycle_dt_ne h hdt⟩)
  | cons e rest =>
    rw [step_event hs] at h
    by_cases hc : e = .cycle
    · subst hc
      exact .inr (.inr ⟨.inr ⟨rest, rfl⟩, cycle_dt_ne (s := { s with schedule := rest }) h hdt⟩)
    · obtain ⟨rfl, hlt⟩ | ⟨rom, seed, slots, rfl, h0⟩ := perform_dt_ne hc h hdt
      · exact .inl ⟨rest, rfl, hlt⟩
      · exact .inr (.inl ⟨rom, seed, slots, rest, rfl, h0⟩)

end Sys2Proof.Machine
end

section
/-! PROOFS. Single instructions over two cycles, and the engines behind them: RET after CALL (R161), the key-wait (R285), the
random generator (R192), and a sprite drawn twice (R258). -/

namespace Sys2Proof.Machine

/-! ### CALL, then RET (R161) -/

/-- Settles O33: the slot that RET pops is the one that CALL pushed. -/
theorem retUndoesCall : Obligations.RetUndoesCall := by
  intro nnn s t u hsp ht hstack hspu
  obtain rfl := next_unique (exec_call_of_lt nnn hsp) ht
  have hval : u.sp.val = s.sp.val + 1 := congrArg Fin.val hspu
  refine ⟨_, exec_ret_of_pos (by omega), ?pc, Fin.ext (by simp [hval])⟩
  case pc => simp [hstack, hval]

/-! ### The key-wait (R124, R285) -/

theorem decode_ldVxK {w : Word} (hf : famField w = 0xF#4) (hk : kkField w = 0x0A#8) :
    decode w = .ok (.ldVxK (xField w)) := by
  rw [decode_familyF hf, decodeFamilyF, hk]
  rfl

theorem exec_ldVxK (x : RegIx) (s : State) : exec (.ldVxK x) s = .next (s.setWait (some x)) := rfl

/-- Settles O56: the first cycle is one write of WAIT and the second the blocked cycle that finds the key. -/
theorem keyWaitStartsInTheNextCycle : Obligations.KeyWaitStartsInTheNextCycle := by
  refine ⟨decodesAs_of_family_of_kk (by decide) (by decide) decode_ldVxK,
    fun x s => ⟨_, exec_ldVxK x s, rfl, rfl, sameBytes_of_eq rfl rfl⟩, fun x s k hs hr ha hd hk => ?cycles⟩
  case cycles =>
    let t := s.inCycle.setWait (some x)
    have hstep : step s = .next t := step_of_exec_next hs hr ha hd (exec_ldVxK x _) hr.inCycle_fault
    have hwaiting : t.Waiting x := ⟨hr.1, hr.2.1, rfl⟩
    obtain ⟨u, hu, hkey, -, hframe⟩ := keyResolvesTheWait t x k hwaiting hk hs
    refine ⟨t, u, hstep, hwaiting, rfl, rfl, hu, ?running, hkey, ?pc, ?rng⟩
    case running => rw [hframe]; exact ⟨hr.1, hr.2.1, rfl⟩
    case pc => rw [hframe]; rfl
    case rng => rw [hframe]

/-! ### The random generator (R192) -/

/-- The rule's pseudocode: its shifts are multiplications and divisions by powers of two. -/
theorem rngStep_toNat (s : Byte) : (rngStep s).toNat =
    let a := s.toNat ^^^ (s.toNat * 32 % 256)
    let b := a ^^^ (a / 2)
    b ^^^ (b * 32 % 256) := by
  simp only [rngStep, BitVec.toNat_xor, BitVec.toNat_shiftLeft, BitVec.toNat_ushiftRight, Nat.shiftLeft_eq,
    Nat.shiftRight_eq_div_pow]

theorem rngStep_iterate_eight (s : Byte) : rngStep^[8] s = s := by
  revert s
  decide

/-- Eight steps are the identity, so seven undo one. -/
theorem rngStep_bijective : Function.Bijective rngStep :=
  Function.bijective_iff_has_inverse.2 ⟨rngStep^[7], rngStep_iterate_eight, fun s => by
    rw [← Function.iterate_succ_apply' rngStep 7]
    exact rngStep_iterate_eight s⟩

theorem rngStep_fixed_iff : ∀ s : Byte, rngStep s = s ↔ s = 0x00 ∨ s = 0x21 := by decide

/-- Four steps bring back the sixteen bytes on cycles of length 1, 2 and 4, and move the others. -/
theorem card_rngStep_iterate_four_ne : (Finset.univ.filter fun s : Byte => rngStep^[4] s ≠ s).card = 240 := by
  have back : (Finset.univ.filter fun s : Byte => rngStep^[4] s = s).card = 16 := rfl
  have all : (Finset.univ : Finset Byte).card = 256 :=
    FinEnum.card_eq_fintypeCard.symm.trans (FinEnum.card_bitVec 8)
  have parts := Finset.univ.card_filter_add_card_filter_not fun s : Byte => rngStep^[4] s = s
  simp only [← ne_eq] at parts
  omega

/-- Settles O42: the arithmetic for every byte; the cycles by running the generator on all 256 of them. -/
theorem rngStepIsTheXorshift : Obligations.RngStepIsTheXorshift :=
  ⟨rngStep_toNat, rngStep_bijective, rngStep_fixed_iff, rfl, rfl, rngStep_iterate_eight, rfl,
    card_rngStep_iterate_four_ne, rfl⟩

/-! ### Drawing twice (R251, R258) -/

/-- A byte that is not 0 has a bit on some column of its row word. -/
theorem spriteWord_eq_zero_iff (b : Byte) {xpos : Nat} (hx : xpos < 64) : spriteWord b xpos = 0 ↔ b = 0 := by
  constructor
  · intro hw
    refine BitVec.eq_of_getLsbD_eq fun j hj => ?_
    have hcol := spriteWord_column b xpos ((xpos + (7 - j)) % 64) hx (Nat.mod_lt _ (by decide))
    have hdist : ((xpos + (7 - j)) % 64 + 64 - xpos) % 64 = 7 - j := by omega
    rw [hdist, hw] at hcol
    simpa [show 7 - j < 8 by omega, show 7 - (7 - j) = j by omega] using hcol.symm
  · rintro rfl
    refine BitVec.eq_of_getLsbD_eq fun j hj => ?_
    have hcol := spriteWord_column 0 xpos (63 - j) hx (by omega)
    simpa [show 63 - (63 - j) = j by omega] using hcol

section Twice
variable (s : State) (xpos ypos : Nat) {sprite : List Byte} (hl : sprite.length ≤ 32)
include hl

/-- A row after draw(): XORed with the word of the sprite byte that lands on it, if any. -/
theorem draw_row (r : Fin 32) : (s.draw xpos ypos sprite).1.fb[r.val] =
    if rowOffset ypos r < sprite.length then s.fb[r.val] ^^^ spriteWord (sprite.getD (rowOffset ypos r) 0) xpos
    else s.fb[r.val] := by
  have hrow := drawRows_row xpos ypos 0 sprite s.fb false r (by omega)
  simp only [Nat.zero_le, true_and, Nat.zero_add, Nat.sub_zero] at hrow
  exact hrow

theorem draw_spriteRow {k : Nat} (hk : k < sprite.length) :
    (s.draw xpos ypos sprite).1.fb[(spriteRow ypos k).val] =
      s.fb[(spriteRow ypos k).val] ^^^ spriteWord sprite[k] xpos := by
  have hoff : rowOffset ypos (spriteRow ypos k) = k := ((spriteRow_eq_iff ypos k _ (by omega)).1 rfl).symm
  rw [draw_row s xpos ypos hl, hoff, if_pos hk, List.getD_eq_getElem _ _ hk]

/-- draw() collides exactly when some sprite byte's word overlaps the row it lands on. -/
theorem draw_collides_iff : (s.draw xpos ypos sprite).2 = true ↔ ∃ (k : Nat) (h : k < sprite.length),
    overlaps s.fb[(spriteRow ypos k).val] (spriteWord sprite[k] xpos) = true := by
  have hcoll := drawRows_coll xpos ypos 0 sprite s.fb false (by omega)
  simp only [Bool.false_eq_true, false_or, Nat.zero_add] at hcoll
  exact hcoll

theorem draw_draw_fb : ((s.draw xpos ypos sprite).1.draw xpos ypos sprite).1.fb = s.fb := by
  refine Vector.ext fun r hr => ?_
  have once := draw_row s xpos ypos hl ⟨r, hr⟩
  have twice := draw_row (s.draw xpos ypos sprite).1 xpos ypos hl ⟨r, hr⟩
  rw [once] at twice
  refine twice.trans ?_
  split
  · rw [BitVec.xor_assoc, BitVec.xor_self, BitVec.xor_zero]
  · rfl

end Twice

/-- After a word is XORed into a row, it overlaps the row where the row was unlit. -/
theorem overlaps_xor_iff (row w : Row) : overlaps (row ^^^ w) w = true ↔ w &&& ~~~ row ≠ 0 := by
  have hand : (row ^^^ w) &&& w = w &&& ~~~ row := by
    ext j hj
    simp only [BitVec.getElem_and, BitVec.getElem_xor, BitVec.getElem_not]
    cases row[j] <;> cases w[j] <;> rfl
  rw [overlaps, bne_iff_ne, hand]

/-- The second draw of R258, from R251: it meets what the first has lit. -/
theorem second_draw_collides_iff (s : State) (xpos ypos : Nat) {sprite : List Byte} (hl : sprite.length ≤ 32) :
    ((s.draw xpos ypos sprite).1.draw xpos ypos sprite).2 = true ↔ ∃ (k : Nat) (h : k < sprite.length),
      spriteWord sprite[k] xpos &&& ~~~ s.fb[(spriteRow ypos k).val] ≠ 0 := by
  rw [draw_collides_iff _ xpos ypos hl]
  refine exists_congr fun k => exists_congr fun hk => ?_
  rw [draw_spriteRow s xpos ypos hl hk, overlaps_xor_iff]

/-- Settles O51: XOR is its own inverse row by row, and the second draw collides where the first has lit a pixel; on a blank
screen that is wherever the sprite has a bit. -/
theorem drawingTwiceRestoresTheScreen : Obligations.DrawingTwiceRestoresTheScreen := by
  intro s xpos ypos sprite hx hlen
  have hl : sprite.length ≤ 32 := by omega
  have hcoll := second_draw_collides_iff s xpos ypos hl
  refine ⟨draw_draw_fb s xpos ypos hl, hcoll, fun hblank => hcoll.trans ?blank⟩
  case blank =>
    have word (k : Nat) (hk : k < sprite.length) :
        spriteWord sprite[k] xpos &&& ~~~ s.fb[(spriteRow ypos k).val] ≠ 0 ↔ sprite[k] ≠ 0 := by
      rw [hblank, ne_eq, ne_eq, not_iff_not, ← spriteWord_eq_zero_iff sprite[k] hx]
      exact iff_of_eq (congrArg (· = 0) BitVec.and_allOnes)
    exact (exists_congr fun k => exists_congr (word k)).trans (List.exists_mem_iff_exists_getElem (P := (· ≠ 0))).symm

/-- A screen lit with the sprite's own image: the byte 0xFF at column 0 of row 0. -/
def ownImage : State := { State.reset with fb := (Vector.replicate 32 0).set 0 (spriteWord 0xFF 0) }

/-- Refutes O52: over its own image the sprite erases it, and the second draw meets no lit pixel (R251). -/
theorem not_secondDrawAlwaysReportsCollision : ¬ Obligations.SecondDrawAlwaysReportsCollision := by
  intro h
  have second : ((ownImage.draw 0 0 [0xFF]).1.draw 0 0 [0xFF]).2 = false := by decide
  have collides := (h ownImage 0 0 [0xFF] (by decide) (by decide)).2 ⟨0xFF, List.mem_singleton_self _, by decide⟩
  exact Bool.false_ne_true (second.symm.trans collides)

end Sys2Proof.Machine
end
